-- ==== Sys2Proof/Word.lean ====
section
/-! DEFINITION. The value types of the block (00_scope.md R8): bus bytes, command words, line levels. -/

namespace Sys2Proof

/-- A bus byte, a payload or a control pattern: 8 bits (R8). -/
abbrev Byte := BitVec 8

/-- A command word: `CMD_WIDTH` = 32 bits (R7, R60). -/
abbrev CmdWord := BitVec 32

/-- A line level, 1 bit (R8, R10): `false` is 0 (driven low), `true` is 1 (released). -/
abbrev Level := Bool

end Sys2Proof
end

