-- ==== Sys2Proof/Syntax.lean ====
section
/-! DEFINITION. The commands of the block, one constructor per row of spec/opcode_table.json (30_encoding.md R61). -/

namespace Sys2Proof

/-- A command with its operand (R61, R62): the operand of `WRB`, `CMD` and `DAT` is an unsigned byte, that of `WAIT`
a natural number of microseconds (R8). -/
inductive Instr where
  /-- `START`: produce a start condition (R91). -/
  | start
  /-- `STOP`: produce a stop condition (R92). -/
  | stop
  /-- `WRB b`: write one byte and clock the acknowledge slot (R93). -/
  | wrb (b : Byte)
  /-- `CMD v`: send a display command, register select 0 (R113). -/
  | cmd (v : Byte)
  /-- `DAT v`: send a character code, register select 1 (R114). -/
  | dat (v : Byte)
  /-- `WAIT n`: hold the lines for at least `n` microseconds (R81). -/
  | wait (n : Nat)
  deriving DecidableEq, Repr

end Sys2Proof
end

