-- ==== Sys2Proof/WellFormed.lean ====
section
/-! DEFINITION. Which commands a command word can spell (30_encoding.md R62, R66): the count of `WAIT` fits in
`WAIT_ARG_WIDTH` = 24 bits (R7); every byte operand fits by its type. -/

namespace Sys2Proof

/-- "n is an unsigned count of microseconds, 0 to 16 777 215" (R81, R62). -/
def Instr.wellFormed : Instr → Bool
  | .start => true
  | .stop => true
  | .wrb _ => true
  | .cmd _ => true
  | .dat _ => true
  | .wait n => n < 2 ^ 24

/-- The check as a proposition. -/
abbrev Instr.WellFormed (i : Instr) : Prop := i.wellFormed = true

end Sys2Proof
end

