-- ==== Sys2Proof/Decode.lean ====
section
/-! DEFINITION. The decoder of 30_encoding.md R65, total on every 32-bit word, and after it the encoder of R68. -/

namespace Sys2Proof

/-- Why a word is reserved (R63, R64); the three names are the model's (log 22). -/
inductive Reserved where
  /-- `Z` is not 0 (R63). -/
  | zField
  /-- `OP` is 0x0 or 0x7 to 0xF (R64). -/
  | opcode
  /-- A must-be-zero part of `ARG` is not 0 (R63). -/
  | argField
  deriving DecidableEq, Repr

/-- `OP`, bits [31:28] (R60). -/
def opField (w : CmdWord) : BitVec 4 := w.extractLsb' 28 4

/-- `Z`, bits [27:24] (R60). -/
def zField (w : CmdWord) : BitVec 4 := w.extractLsb' 24 4

/-- `ARG`, bits [23:0] (R60). -/
def argField (w : CmdWord) : BitVec 24 := w.extractLsb' 0 24

/-- `ARG[23:8]`, which must be 0 for `WRB`, `CMD` and `DAT` (R61). -/
def argHigh (w : CmdWord) : BitVec 16 := w.extractLsb' 8 16

/-- The byte operand `ARG[7:0]` (R62). -/
def byteOperand (w : CmdWord) : Byte := w.extractLsb' 0 8

/-- The count operand `zext(ARG[23:0])` (R62). -/
def countOperand (w : CmdWord) : Nat := (argField w).toNat

/-- R65: the command a word spells, or why it spells none. -/
def decode (w : CmdWord) : Except Reserved Instr :=
  if zField w ≠ 0 then .error .zField
  else if opField w = 0x1 then if argField w = 0 then .ok .start else .error .argField
  else if opField w = 0x2 then if argField w = 0 then .ok .stop else .error .argField
  else if opField w = 0x3 then if argHigh w = 0 then .ok (.wrb (byteOperand w)) else .error .argField
  else if opField w = 0x4 then if argHigh w = 0 then .ok (.cmd (byteOperand w)) else .error .argField
  else if opField w = 0x5 then if argHigh w = 0 then .ok (.dat (byteOperand w)) else .error .argField
  else if opField w = 0x6 then .ok (.wait (countOperand w))
  else .error .opcode

/-- The command word of `nbits` bits whose value is `w`; the bits above `nbits` are 0 (log 15). -/
def tableWord (nbits w : Nat) : CmdWord := BitVec.ofNat 32 (w % 2 ^ nbits)

/-- The host's question for one row of the opcode table: what the decoder reads from the word. -/
def decodeTableWord (nbits w : Nat) : Option Instr :=
  match decode (tableWord nbits w) with
  | .ok i => some i
  | .error _ => none

/-- A command word from its three fields (R60). -/
def packWord (op : BitVec 4) (arg : BitVec 24) : CmdWord := op ++ 0x0#4 ++ arg

/-- R68: the word that spells a command. A count that does not fit (an ill-formed `WAIT`) has no word of its own; the
assembler refuses it (R66; log 24). -/
def encode : Instr → CmdWord
  | .start => packWord 0x1 0
  | .stop => packWord 0x2 0
  | .wrb b => packWord 0x3 (b.setWidth 24)
  | .cmd v => packWord 0x4 (v.setWidth 24)
  | .dat v => packWord 0x5 (v.setWidth 24)
  | .wait n => packWord 0x6 (BitVec.ofNat 24 n)

end Sys2Proof
end

