-- ==== Sys2Proof/Config.lean ====
section
/-! DEFINITION. What an implementation fixes and the spec leaves open (00_scope.md R7 "OPEN"; 92_eei_decisions.md
"Open parameters, collected"): constants with no body, so that no proof can see a value of them. The hardwired
constants stand in Sys2Proof/Machine/Params.lean. -/

namespace Sys2Proof

/-- Everything open about the time a run takes. Time is counted in units of an unstated length; a microsecond is a
whole number of them (log 4). The functions are free draws, one per step of the run. -/
structure Timing where
  /-- Units in a microsecond, less one: at least one unit. -/
  unitsLess1 : Nat
  /-- `T_EDGE`: the gap one line-change event takes, at least 0 (R7, R90). -/
  tEdge : Nat
  /-- `DELAY_SLACK`: at least 0, or unbounded (`none`) (R7, R80). -/
  delaySlack : Option Nat
  /-- What a wait that ends at step `k` asks to last beyond its request (R80, U2). -/
  slackDraw : Nat → Nat
  /-- How long the idle or resetting block stays at step `k` (R31, R26; log 16). -/
  idleDraw : Nat → Nat
  /-- How much of step `k` has passed when a reset cuts it, where the step is not over before (R180, R83; log 3). -/
  resetCut : Nat → Nat
  /-- Whether `Set(SDA, 1)` is the first `Set` of the reset at step `k` (R180, U7). -/
  resetSdaFirst : Nat → Bool
  deriving Inhabited

/-- The block's timing, open, before R82's bound on `DELAY_SLACK` (`blockTiming`, Sys2Proof/Machine/Delay.lean). -/
opaque Config.timing : Timing

/-- What every other device drives on the SCL wire at step `k` (R29, U6): under no law. -/
opaque Config.envScl : Nat → Level

/-- What every other device drives on the SDA wire at step `k` (R29, U6): under no law. -/
opaque Config.envSda : Nat → Level

/-- `F_TICK_HZ`, less one: at least 1 (R7; 92_eei_decisions.md). -/
opaque Config.fTickHzLess1 : Nat

/-- `F_TICK_HZ` (R82). -/
def Config.fTickHz : Nat := Config.fTickHzLess1 + 1

/-- The open delays of the host's `initialize` (43_host_sequences.md R135), as `T_R3` and what each delay has over the
next, less one, which is the constraint `T_R1 > T_R2 > T_R3`. -/
structure BringUp where
  /-- `T_PWRUP`. -/
  tPwrup : Nat
  /-- `T_R3`. -/
  tR3 : Nat
  /-- `T_R2 - T_R3 - 1`. -/
  r2Over : Nat
  /-- `T_R1 - T_R2 - 1`. -/
  r1Over : Nat
  deriving Inhabited

/-- `T_R2`, greater than `T_R3`. -/
def BringUp.tR2 (b : BringUp) : Nat := b.tR3 + b.r2Over + 1

/-- `T_R1`, greater than `T_R2`. -/
def BringUp.tR1 (b : BringUp) : Nat := b.tR2 + b.r1Over + 1

/-- The host's delays: open (D21). -/
opaque Config.bringUp : BringUp

/-- `N_COLS`, less 16: the display is at least 16 columns wide (R145). -/
opaque Config.nColsOver16 : Nat

/-- `N_COLS` (R145). -/
def Config.nCols : Nat := Config.nColsOver16 + 16

/-- The text `LABEL0` is taken from (R136). -/
opaque Config.label0Text : List Byte

/-- `LABEL0`: at most `N_COLS` characters, with no NUL (R136; 92_eei_decisions.md). -/
def Config.label0 : List Byte := (Config.label0Text.filter (· ≠ 0)).take Config.nCols

end Sys2Proof
end

