-- ==== Sys2Proof/Machine/State.lean ====
section
/-! DEFINITION. The state of the block (10_state.md R20) as plain data, its reset values (R30), and the reasons a step
can stop. -/

namespace Sys2Proof.Machine

/-- The two output lines (R10). -/
inductive Line where
  | scl
  | sda
  deriving DecidableEq, Repr

/-- The events a command expands to (R12). -/
inductive Event where
  /-- `Set(l, v)`: the block sets the output state of line `l` to `v` (R90). -/
  | set (l : Line) (v : Level)
  /-- `Wait(n)`: at least `n` microseconds pass and no line changes (R80). -/
  | wait (n : Nat)
  deriving DecidableEq, Repr

/-- The output states of the two lines (R10). -/
structure Lines where
  scl : Level
  sda : Level
  deriving DecidableEq, Repr

/-- The levels of the block's input ports at one step (R25). -/
structure Ports where
  /-- `rst`: reset, active high. -/
  rst : Bool
  /-- `cmd_valid`: the host offers a command word. -/
  cmdValid : Bool
  /-- `cmd_word`: the offered word. -/
  cmdWord : CmdWord
  deriving DecidableEq, Repr

/-- Ports at which the host does nothing. -/
def Ports.quiet : Ports := ⟨false, false, 0⟩

/-- R20: the block's state, and `edges`, the model's own field (log 12). -/
structure State where
  /-- Output state of the clock line. -/
  scl : Level
  /-- Output state of the data line. -/
  sda : Level
  /-- The events of the accepted command not yet performed. -/
  pending : List Event
  /-- `wait_left`: microseconds of the wait at the head of `pending` not yet elapsed, 0 when the head is not a wait. -/
  waitLeft : Nat
  /-- The sticky, model-only mark of a word without meaning (R161). -/
  refused : Bool
  /-- The port levels at the coming steps, oldest first; quiet after the end. -/
  edges : List Ports
  deriving DecidableEq, Repr

/-- No step faults: "No admitted command raises an exception, and the block has no exception cause codes" (R160), so the
type has no constructor. -/
inductive Fault
  deriving DecidableEq, Repr

/-- Why the model gives a step no meaning. -/
inductive Refusal where
  /-- An instruction without a meaning yet; raised by no arm of this model. Safe: a stop proves nothing. -/
  | notModelled (mnemonic : String)
  /-- A reserved word was accepted (R161): raised by every step of a state whose `refused` mark is set. Safe: the spec gives
  the word no meaning and the model takes no further step. -/
  | reservedCommand
  deriving DecidableEq, Repr

/-- R30: the state at the end of reset and at power-on. -/
def State.reset : State where
  scl := true
  sda := true
  pending := []
  waitLeft := 0
  refused := false
  edges := []

end Sys2Proof.Machine
end

