-- ==== Sys2Proof/Machine/Ops.lean ====
section
/-! DEFINITION. The named operations over the state: performing events (10_state.md R23; R80, R90), accepting an expansion,
reset (70_reset_and_hazards.md R180) and the refusal mark (60_exceptions.md R161). The block takes no exception and returns
from none (R160, R165); reset is the one entry that cuts an operation short. -/

namespace Sys2Proof.Machine

/-- The line states with line `l` at `v` (R90). -/
def Lines.set (l : Line) (v : Level) (a : Lines) : Lines :=
  match l with
  | .scl => { a with scl := v }
  | .sda => { a with sda := v }

/-- What one event does to the lines: a `Set` writes its line (R90), a `Wait` changes none (R80). -/
def Lines.apply (a : Lines) : Event → Lines
  | .set l v => a.set l v
  | .wait _ => a

/-- What a sequence of events leaves the lines at (R12). -/
def Lines.run (a : Lines) (es : List Event) : Lines := es.foldl Lines.apply a

/-- The two lines of the block. -/
def State.lines (s : State) : Lines := ⟨s.scl, s.sda⟩

/-- The state with both lines replaced. -/
def State.withLines (a : Lines) (s : State) : State := { s with scl := a.scl, sda := a.sda }

/-- "on entry: wait_left <- n" (R23): what `wait_left` is when a sequence comes to its head; 0 when the head is no wait
(R20; log 2). -/
def headWait : List Event → Nat
  | .wait n :: _ => n
  | _ => 0

/-- `pending <- es`, entering the wait at its head if there is one (R23). -/
def State.load (es : List Event) (s : State) : State := { s with pending := es, waitLeft := headWait es }

/-- "time passes by t: wait_left <- max(0, wait_left - t)" (R23); subtraction stops at 0. -/
def State.passTime (t : Nat) (s : State) : State := { s with waitLeft := s.waitLeft - t }

/-- One step of a busy block (R23): a `Set` at the head is performed and removed; a wait at the head lets a microsecond
pass, or is removed once none is left (log 3). -/
def State.perform (s : State) : State :=
  match s.pending with
  | [] => s
  | .set l v :: rest => (s.withLines (s.lines.set l v)).load rest
  | .wait _ :: rest => if s.waitLeft = 0 then s.load rest else s.passTime 1

/-- Acceptance of a command whose expansion is `es`: "pending <- expand(op)" (R23), the shared operation of every meaning. -/
def State.accept (es : List Event) (s : State) : Host.Outcome State Fault Refusal := .next (s.load es)

/-- R161: the sticky mark; `pending` unchanged. -/
def State.refuse (s : State) : State := { s with refused := true }

/-- R180: both lines released, `pending` emptied, `wait_left` 0. The mark `refused` is not hardware and stays (R30). -/
def State.releaseAll (s : State) : State := { s with scl := true, sda := true, pending := [], waitLeft := 0 }

/-- The port levels at this step (R25; log 12). -/
def State.port (s : State) : Ports :=
  match s.edges with
  | [] => Ports.quiet
  | p :: _ => p

/-- The state once this step's port levels are past. -/
def State.nextEdge (s : State) : State := { s with edges := s.edges.tail }

end Sys2Proof.Machine
end

