-- ==== Sys2Proof/Machine/Delay.lean ====
section
/-! DEFINITION. The delay unit's command: `WAIT` (40_delay.md R81), and the ticks of R82: the tick count, the tick period, and
what `DELAY_SLACK` must admit of it. -/

namespace Sys2Proof.Machine

/-- `expand(WAIT n) = if n = 0 then [] else [Wait(n)]` (R81). -/
def expandWait (n : Nat) : List Event := if n = 0 then [] else [.wait n]

/-- `WAIT n` (R81). -/
def execWait (n : Nat) (s : State) : Host.Outcome State Fault Refusal := s.accept (expandWait n)

/-- `ceil(n * f / 1 000 000)`: the least whole number of tick periods, at `f` ticks a second, that a hardware
implementation counts for `Wait(n)` (R82). -/
def minTicks (f n : Nat) : Nat := (n * f + 999999) / 1000000

/-- The same at the block's own open frequency `F_TICK_HZ` (R82, log 21). -/
def waitTicks (n : Nat) : Nat := minTicks Config.fTickHz n

/-- Time units in a microsecond (log 4). -/
def unitsPerMicro (T : Timing) : Nat := T.unitsLess1 + 1

/-- One period of a tick of `f` a second, in whole time units: the least that are no shorter (log 21). -/
def tickPeriod (f : Nat) (T : Timing) : Nat := (1000000 * unitsPerMicro T + (f - 1)) / f

/-- R82: "up to one tick period of extra duration, which `DELAY_SLACK` must admit": a bounded `DELAY_SLACK` is at least a tick
period. -/
def admitTick (f : Nat) (T : Timing) : Timing := { T with delaySlack := T.delaySlack.map (max (tickPeriod f T)) }

/-- The block's own timing: open, under R82's bound at its own open frequency. -/
def blockTiming : Timing := admitTick Config.fTickHz Config.timing

end Sys2Proof.Machine
end

