-- ==== Sys2Proof/Machine/Params.lean ====
section
/-! DEFINITION. The hardwired constants of 00_scope.md R7 (10_state.md R27). -/

namespace Sys2Proof.Machine

/-- `Q_US`: the bus quantum in microseconds (R7; R187 "a model must keep `Q_US` = 2"). -/
def qUs : Nat := 2

/-- `T_SETTLE_US`: the settle delay after an encoder transaction, in microseconds (R7, R116). -/
def tSettleUs : Nat := 50

/-- `BUS_ADDR`: the address byte the encoder sends (R7, R70). -/
def busAddr : Byte := 0x4E

/-- `CTL_CMD`: base control pattern on the command path (R7, R111). -/
def ctlCmd : Byte := 0x08

/-- `CTL_DAT`: base control pattern on the data path (R7, R111). -/
def ctlDat : Byte := 0x09

/-- `EN_BIT`: the enable strobe bit (R7, R111). -/
def enBit : Byte := 0x04

/-- `ACK_RELEASE_SDA`: whether SDA is released before the acknowledge clock. The spec's choice is false (D7); every
expansion takes it as an argument (log 7). -/
def ackReleaseSda : Bool := false

/-- `HOURS_CEIL`: absent by default (R142, D26). -/
def hoursCeil : Option Nat := none

end Sys2Proof.Machine
end

