-- ==== Sys2Proof/Machine/Operands.lean ====
section
/-! DEFINITION. What a byte operand becomes: its bits in wire order (20_memory.md R43) and its six encoder bytes
(42_nibble_encoder.md R110 to R112). The fields of the command word stand in Sys2Proof/Decode.lean. -/

namespace Sys2Proof.Machine

/-- The bits of a byte in the order they go out, most significant first (R43). -/
def bitsMsbFirst (b : Byte) : List Level :=
  [b.getLsbD 7, b.getLsbD 6, b.getLsbD 5, b.getLsbD 4, b.getLsbD 3, b.getLsbD 2, b.getLsbD 1, b.getLsbD 0]

/-- `hi(v) = v & 0xF0` (R110). -/
def hiNibble (v : Byte) : Byte := v &&& 0xF0

/-- `lo(v) = (v << 4) & 0xF0`, the shift taken at 8 bits (R110). -/
def loNibble (v : Byte) : Byte := (v <<< 4) &&& 0xF0

/-- `ctl(rs)`: the base control pattern of the command path (rs = 0) or the data path (rs = 1) (R111). -/
def ctl (rs : Bool) : Byte := if rs then ctlDat else ctlCmd

/-- The triple `(n | ctl, n | ctl | 0x04, n | ctl)` of one nibble field (R112). -/
def triple (rs : Bool) (n : Byte) : List Byte := [n ||| ctl rs, n ||| ctl rs ||| enBit, n ||| ctl rs]

/-- `bytes(rs, v)`: the `BYTES_PER_NPE` = 6 bus bytes, high nibble first (R7, R112, R44). -/
def encoderBytes (rs : Bool) (v : Byte) : List Byte := triple rs (hiNibble v) ++ triple rs (loNibble v)

end Sys2Proof.Machine
end

