-- ==== Sys2Proof/Machine/Bus.lean ====
section
/-! DEFINITION. The bus controller's commands: `START`, `STOP`, `WRB` (41_bus_controller.md R91 to R95). -/

namespace Sys2Proof.Machine

/-- `expand(START)` (R91). -/
def expandStart : List Event :=
  [.set .sda true, .set .scl true, .wait qUs, .set .sda false, .wait qUs, .set .scl false, .wait qUs]

/-- `expand(STOP)` (R92). -/
def expandStop : List Event :=
  [.set .sda false, .set .scl true, .wait qUs, .set .sda true, .wait qUs]

/-- One clock pulse: a high phase and a low phase of a quantum each (R93). -/
def clockPulse : List Event := [.set .scl true, .wait qUs, .set .scl false, .wait qUs]

/-- `bitcell(v)` (R93, D6). -/
def bitCell (v : Level) : List Event := .set .sda v :: clockPulse

/-- `ackcell` (R93, R94); `rel` is `ACK_RELEASE_SDA` (log 7). -/
def ackCell (rel : Bool) : List Event := (if rel then [.set .sda true] else []) ++ clockPulse

/-- `expand(WRB b)` (R93). -/
def expandWrb (rel : Bool) (b : Byte) : List Event := (bitsMsbFirst b).flatMap bitCell ++ ackCell rel

/-- `START` (R91). -/
def execStart (s : State) : Host.Outcome State Fault Refusal := s.accept expandStart

/-- `STOP` (R92). -/
def execStop (s : State) : Host.Outcome State Fault Refusal := s.accept expandStop

/-- `WRB b` (R93): accepted in every line state, with no check and no sample of the bus (R95, R96). -/
def execWrb (b : Byte) (s : State) : Host.Outcome State Fault Refusal := s.accept (expandWrb ackReleaseSda b)

end Sys2Proof.Machine
end

