-- ==== Sys2Proof/Machine/Encoder.lean ====
section
/-! DEFINITION. The nibble-packing encoder's commands: `CMD`, `DAT` (42_nibble_encoder.md R113 to R116). -/

namespace Sys2Proof.Machine

/-- `npe(rs, v)`: one transaction, start condition, address byte, six encoder bytes, stop condition, then the settle wait
(R113, R115, R116). -/
def npe (rel rs : Bool) (v : Byte) : List Event :=
  expandStart ++ (busAddr :: encoderBytes rs v).flatMap (expandWrb rel) ++ expandStop ++ [.wait tSettleUs]

/-- `expand(CMD v) = npe(0, v)` (R113). -/
def expandCmd (rel : Bool) (v : Byte) : List Event := npe rel false v

/-- `expand(DAT v) = npe(1, v)` (R114). -/
def expandDat (rel : Bool) (v : Byte) : List Event := npe rel true v

/-- `CMD v` (R113). -/
def execCmd (v : Byte) (s : State) : Host.Outcome State Fault Refusal := s.accept (expandCmd ackReleaseSda v)

/-- `DAT v` (R114). -/
def execDat (v : Byte) (s : State) : Host.Outcome State Fault Refusal := s.accept (expandDat ackReleaseSda v)

end Sys2Proof.Machine
end

