-- ==== Sys2Proof/Machine/Dispatch.lean ====
section
/-! DEFINITION. The meaning of each command: one arm per constructor of Instr. -/

namespace Sys2Proof.Machine

-- The acceptance of a command (10_state.md R23).
def exec (i : Instr) (s : State) : Host.Outcome State Fault Refusal :=
  match i with
  | .start => Sys2Proof.Machine.execStart s
  | .stop => Sys2Proof.Machine.execStop s
  | .wrb b => Sys2Proof.Machine.execWrb b s
  | .cmd v => Sys2Proof.Machine.execCmd v s
  | .dat v => Sys2Proof.Machine.execDat v s
  | .wait n => Sys2Proof.Machine.execWait n s

end Sys2Proof.Machine
end

