-- ==== Sys2Proof/Machine/Flags.lean ====
section
/-! DEFINITION. The block has no status flags, condition codes or error bits (10_state.md R24). Its only status is the
derived outputs of R20 and R25, written here. -/

namespace Sys2Proof.Machine

/-- "`busy = 1` exactly when `pending` is not empty" (R20). -/
def State.busy (s : State) : Bool := !s.pending.isEmpty

/-- `cmd_ready` = `~busy & ~rst` (R25). -/
def State.cmdReady (s : State) : Bool := !s.busy && !s.port.rst

/-- `scl_oe` = `~scl`: 1 drives the SCL pin low (R25). -/
def State.sclOe (s : State) : Bool := !s.scl

/-- `sda_oe` = `~sda`: 1 drives the SDA pin low (R25). -/
def State.sdaOe (s : State) : Bool := !s.sda

end Sys2Proof.Machine
end

