-- ==== Sys2Proof/Machine/Cycle.lean ====
section
/-! DEFINITION. What one step of the block is, given the port levels at it (10_state.md R23, R26, R31; 60_exceptions.md R161,
R164; 70_reset_and_hazards.md R180). Sys2Proof/Machine/Step.lean calls it. -/

namespace Sys2Proof.Machine

/-- An idle block accepts the word `w` (R26): its command's meaning, or for a reserved word the mark (R161). -/
def acceptWord (w : CmdWord) (s : State) : Host.Outcome State Fault Refusal :=
  match decode w with
  | .ok i => exec i s
  | .error _ => .next s.refuse

/-- One step at port levels `p`. A refused model takes no further step (R161, log 8). Reset wins over everything else (R164,
R180). A busy block performs its next event and does not look at the offer (R26, R48). An idle block accepts an offered
word, and with none offered keeps its lines (R31). -/
def stepAt (p : Ports) (s : State) : Host.Outcome State Fault Refusal :=
  if s.refused then .refused .reservedCommand
  else if p.rst then .next s.releaseAll
  else if s.busy then .next s.perform
  else if p.cmdValid then acceptWord p.cmdWord s
  else .next s

/-- The state in which the next step accepts `w`: idle, not refused, and the port offering `w` (log 12). -/
def State.offering (w : CmdWord) (s : State) : State :=
  { s with pending := [], waitLeft := 0, refused := false, edges := ⟨false, true, w⟩ :: s.edges.tail }

end Sys2Proof.Machine
end

