-- ==== Sys2Proof/Machine/Step.lean ====
section
/-! DEFINITION. One step of the block: one transition of 10_state.md R23, at the port levels of this step. -/

namespace Sys2Proof.Machine

/-- One step: the port levels of this step are used and past (log 1). -/
def step (s : State) : Host.Outcome State Fault Refusal := stepAt s.port s.nextEdge

/-- The state with the instruction offered where `step` takes its next command from: the command port (log 12). -/
def State.withFetchWord (s : State) (nbits w : Nat) : State := s.offering (tableWord nbits w)

end Sys2Proof.Machine
end

