-- ==== Sys2Proof/Machine/Assembler.lean ====
section
/-! DEFINITION. The assembler of 30_encoding.md R66 and the pseudo-commands of R67: notation for command sequences, with no
effect of its own on the block (D19). Text is a list of characters (log 19). -/

namespace Sys2Proof.Machine

/-! ### Pseudo-commands (R67) -/

/-- `XFER a, b1, ..., bk`: one start, address, bytes, stop transaction (R67). -/
def xfer (a : Byte) (bs : List Byte) : List Instr := .start :: (a :: bs).map .wrb ++ [.stop]

/-- `SETCUR r, c`: the display address taken modulo 256, unchecked (R67, R131). -/
def setCursor (row col : Nat) : Instr := .cmd (BitVec.ofNat 8 ((if row = 0 then 0x80 else 0xC0) + col))

/-- `PUTS s`: one `DAT` for each character up to, and not including, the first NUL (R67, R132). -/
def putString (text : List Byte) : List Instr := (text.takeWhile (· ≠ 0)).map .dat

/-- `NPERAW rs, v`: the raw commands of one encoder transaction (R67, R120). -/
def npeRaw (rs : Bool) (v : Byte) : List Instr := xfer busAddr (encoderBytes rs v) ++ [.wait tSettleUs]

/-! ### Text -/

/-- An operand as written (R66). -/
inductive Operand where
  /-- A decimal or hexadecimal immediate. -/
  | num (n : Nat)
  /-- A character literal. -/
  | chr (c : Char)
  /-- A string, for `PUTS`. -/
  | str (cs : List Char)
  deriving DecidableEq, Repr

/-- The text without the blanks it begins with. -/
def skipBlanks : List Char → List Char
  | [] => []
  | c :: cs => if c = ' ' ∨ c = '\t' then skipBlanks cs else c :: cs

/-- The ways to write each digit of an immediate (R66), by value: decimal immediates use the first ten, hexadecimal ones all
(either case: log 19). -/
def digitForms : List (List Char) :=
  [['0'], ['1'], ['2'], ['3'], ['4'], ['5'], ['6'], ['7'], ['8'], ['9']] ++
    [['A', 'a'], ['B', 'b'], ['C', 'c'], ['D', 'd'], ['E', 'e'], ['F', 'f']]

/-- The value of a digit in the given base: its place among the base's digits. -/
def digitIn (base : Nat) (c : Char) : Option Nat := (digitForms.take base).findIdx? fun forms => forms.contains c

/-- The number the text begins with, after the digits already read. -/
def readDigits (base acc : Nat) : List Char → Nat × List Char
  | [] => (acc, [])
  | c :: cs =>
    match digitIn base c with
    | some d => readDigits base (base * acc + d) cs
    | none => (acc, c :: cs)

/-- A number of at least one digit. -/
def readNumber (base : Nat) : List Char → Option (Nat × List Char)
  | [] => none
  | c :: cs => (digitIn base c).map fun d => readDigits base d cs

/-- A string up to its closing quote, which is the first double quote: a string holds none and has no escapes (log 19). -/
def readString : List Char → Option (List Char × List Char)
  | [] => none
  | c :: cs => if c = '"' then some ([], cs) else (readString cs).map fun r => (c :: r.1, r.2)

/-- One operand (R66): `0x4E`, `50`, `'A'`, or a string. -/
def readOperand : List Char → Option (Operand × List Char)
  | '0' :: 'x' :: cs => (readNumber 16 cs).map fun r => (.num r.1, r.2)
  | '\'' :: c :: '\'' :: cs => some (.chr c, cs)
  | '"' :: cs => (readString cs).map fun r => (.str r.1, r.2)
  | cs => (readNumber 10 cs).map fun r => (.num r.1, r.2)

/-- Whether the rest of a line is blank or a comment, which begins with `;` (R66). -/
def lineEnds (cs : List Char) : Bool :=
  match skipBlanks cs with
  | [] => true
  | c :: _ => c = ';'

/-- The operands of a line, separated by commas; `fuel` is more than the number of operands. -/
def readOperands : Nat → List Char → Option (List Operand)
  | 0, _ => none
  | fuel + 1, cs => do
    let (o, rest) ← readOperand (skipBlanks cs)
    match skipBlanks rest with
    | ',' :: more => (readOperands fuel more).map (o :: ·)
    | rest' => if lineEnds rest' then some [o] else none

/-- The letters a line begins with, and the rest. -/
def readMnemonic : List Char → List Char × List Char
  | [] => ([], [])
  | c :: cs =>
    if 'A' ≤ c ∧ c ≤ 'Z' then
      let r := readMnemonic cs
      (c :: r.1, r.2)
    else ([], c :: cs)

/-- The ASCII code of a character; a character outside ASCII has none (R66). -/
def asciiByte (c : Char) : Option Byte := if c.toNat < 128 then some (BitVec.ofNat 8 c.toNat) else none

/-- An 8-bit immediate; one that does not fit is an error, not a truncation (R66). -/
def immByte : Operand → Option Byte
  | .num n => if n < 256 then some (BitVec.ofNat 8 n) else none
  | .chr _ => none
  | .str _ => none

/-- An 8-bit immediate or a character literal, for `DAT` and `WRB` (R66). -/
def immByteOrChar : Operand → Option Byte
  | .num n => immByte (.num n)
  | .chr c => asciiByte c
  | .str _ => none

/-- The commands of a line with the given mnemonic and operands; `none` is an assembly error (R66, R67). -/
def assembleOps : List Char → List Operand → Option (List Instr)
  | ['S', 'T', 'A', 'R', 'T'], [] => some [.start]
  | ['S', 'T', 'O', 'P'], [] => some [.stop]
  | ['W', 'R', 'B'], [o] => (immByteOrChar o).map fun b => [.wrb b]
  | ['C', 'M', 'D'], [o] => (immByte o).map fun v => [.cmd v]
  | ['D', 'A', 'T'], [o] => (immByteOrChar o).map fun v => [.dat v]
  | ['W', 'A', 'I', 'T'], [.num n] => if (Instr.wait n).wellFormed then some [.wait n] else none
  | ['X', 'F', 'E', 'R'], o :: os => do
    let a ← immByte o
    let bs ← os.mapM immByte
    some (xfer a bs)
  | ['S', 'E', 'T', 'C', 'U', 'R'], [.num r, .num c] => some [setCursor r c]
  | ['P', 'U', 'T', 'S'], [.str cs] => (cs.mapM asciiByte).map putString
  | ['N', 'P', 'E', 'R', 'A', 'W'], [.num rs, o] =>
    if rs < 2 then (immByte o).map (npeRaw (rs = 1)) else none
  | _, _ => none

/-- One line of assembly (R66): a mnemonic and its operands, or nothing, and perhaps a comment. -/
def assembleLine (line : List Char) : Option (List Instr) :=
  let cs := skipBlanks line
  if lineEnds cs then some []
  else
    let (m, rest) := readMnemonic cs
    if lineEnds rest then assembleOps m []
    else match rest with
      | ' ' :: _ => (readOperands (rest.length + 1) rest).bind (assembleOps m)
      | '\t' :: _ => (readOperands (rest.length + 1) rest).bind (assembleOps m)
      | _ => none

/-- A program: one command a line (R66). -/
def assemble (ls : List (List Char)) : Option (List Instr) := (ls.mapM assembleLine).map List.flatten

end Sys2Proof.Machine
end

