-- ==== Sys2Proof/Machine/Expand.lean ====
section
/-! DEFINITION. `expand(op)` of every command as one function (00_scope.md R12), and what can be counted on a sequence of
events (41_bus_controller.md R102; 42_nibble_encoder.md R119; 70_reset_and_hazards.md R192). -/

namespace Sys2Proof.Machine

/-- `expand(op)` with `ACK_RELEASE_SDA` = `rel` (R12, R81, R91 to R93, R113, R114). -/
def expandWith (rel : Bool) : Instr → List Event
  | .start => expandStart
  | .stop => expandStop
  | .wrb b => expandWrb rel b
  | .cmd v => expandCmd rel v
  | .dat v => expandDat rel v
  | .wait n => expandWait n

/-- `expand(op)` of this block. -/
def expand (i : Instr) : List Event := expandWith ackReleaseSda i

/-- Whether an event is a `Set`. -/
def Event.isSet : Event → Bool
  | .set _ _ => true
  | .wait _ => false

/-- The number of `Set` events. -/
def setCount (es : List Event) : Nat := es.countP Event.isSet

/-- The number of `Wait` events. -/
def waitCount (es : List Event) : Nat := es.countP (fun e => !e.isSet)

/-- The microseconds one event asks for. -/
def Event.micros : Event → Nat
  | .set _ _ => 0
  | .wait n => n

/-- The least duration of a sequence in microseconds, "counting the waits only" (R192). -/
def leastMicros (es : List Event) : Nat := (es.map Event.micros).sum

/-- How many steps of the model one event takes: a `Set` one, a wait one for each microsecond and one to end (log 3). -/
def Event.steps : Event → Nat
  | .set _ _ => 1
  | .wait n => n + 1

/-- How many steps of the model a sequence of events takes. -/
def eventSteps (es : List Event) : Nat := (es.map Event.steps).sum

end Sys2Proof.Machine
end

