-- ==== Sys2Proof/Machine/Session.lean ====
section
/-! DEFINITION. The host software around the block (43_host_sequences.md): the display session and the control loop, as functions
that give the commands the host issues. It is not block behaviour (00_scope.md R5); its state is HostState and is no part of
the block's State (log 17). -/

namespace Sys2Proof.Machine

/-! ### Display session -/

/-- The largest count one `WAIT` holds (R62). -/
def maxWait : Nat := 16777215

/-- A host delay of `n` microseconds as `WAIT` commands, split where it does not fit in one (R130; 92_eei_decisions.md D16). -/
def hostWait (n : Nat) : List Instr :=
  if n ≤ maxWait then [.wait n] else List.replicate (n / maxWait) (.wait maxWait) ++ [.wait (n % maxWait)]

/-- The decimal digits of a number, most significant first; `fuel` is at least their count. -/
def decimalDigits : Nat → Nat → List Nat
  | 0, _ => []
  | fuel + 1, n => if n < 10 then [n] else decimalDigits fuel (n / 10) ++ [n % 10]

/-- `%02d`: the decimal value, zero-padded to at least two digits (R133), in ASCII (log 20). -/
def twoDigits (n : Nat) : List Byte :=
  (if n < 10 then [0, n] else decimalDigits (n + 1) n).map fun d => BitVec.ofNat 8 (0x30 + d)

/-- `%02d:%02d:%02d`, bounded to 8 characters (R133, R134). -/
def formatTime (h m s : Nat) : List Byte := (twoDigits h ++ [0x3A] ++ twoDigits m ++ [0x3A] ++ twoDigits s).take 8

/-- `render_time(h, m, s)` (R133). -/
def renderTime (h m s : Nat) : List Instr := setCursor 1 0 :: putString (formatTime h m s)

/-- `initialize()` (R135). -/
def bringUpCommands (b : BringUp) : List Instr :=
  hostWait b.tPwrup ++ [.cmd 0x30] ++ hostWait b.tR1 ++ [.cmd 0x30] ++ hostWait b.tR2 ++ [.cmd 0x30] ++ hostWait b.tR3 ++
    [.cmd 0x20, .cmd 0x28, .cmd 0x0C, .cmd 0x06, .cmd 0x01, .wait 2000]

/-! ### Control loop -/

/-- The run flag (R137). -/
inductive RunFlag where
  | paused
  | running
  deriving DecidableEq, Repr

/-- The host's state (R137). -/
structure HostState where
  run : RunFlag
  h : Nat
  m : Nat
  s : Nat
  /-- Level of the start/stop input at the last poll. -/
  lastSs : Level
  /-- Level of the reset input at the last poll. -/
  lastRst : Level
  deriving DecidableEq, Repr

/-- R137: the initial values. -/
def HostState.initial : HostState := ⟨.paused, 0, 0, 0, true, true⟩

/-- `label(run)`: `RUNNING`, or `PAUSED` and a space, 7 characters (R139). -/
def RunFlag.label : RunFlag → List Byte
  | .running => [0x52, 0x55, 0x4E, 0x4E, 0x49, 0x4E, 0x47]
  | .paused => [0x50, 0x41, 0x55, 0x53, 0x45, 0x44, 0x20]

/-- `PAUSED` to `RUNNING` and back (R139). -/
def RunFlag.toggle : RunFlag → RunFlag
  | .paused => .running
  | .running => .paused

/-- The state label at row 1, column 9 (R139, R140). -/
def renderLabel (r : RunFlag) : List Instr := setCursor 1 9 :: putString r.label

/-- The debounce hold of 200 ms (R139, R140). -/
def debounce : List Instr := [.wait 200000]

/-- R136: the boot display. -/
def bootDisplay (label0 : List Byte) : List Instr :=
  setCursor 0 0 :: putString label0 ++ renderTime 0 0 0 ++ renderLabel .paused

/-- What the host issues before its first loop iteration (R135, R136). -/
def bootCommands : List Instr := bringUpCommands Config.bringUp ++ bootDisplay Config.label0

/-- R139: the action of a start/stop edge. -/
def startStopAction (x : HostState) : HostState × List Instr :=
  ({ x with run := x.run.toggle }, renderLabel x.run.toggle ++ debounce)

/-- R140: the action of a reset edge; `run` is not changed. -/
def resetAction (x : HostState) : HostState × List Instr :=
  ({ x with h := 0, m := 0, s := 0 }, renderTime 0 0 0 ++ renderLabel .paused ++ debounce)

/-- R142: the time one second later; with a ceiling the hours wrap to 0 at it. -/
def HostState.advance (ceiling : Option Nat) (x : HostState) : HostState :=
  let s1 := x.s + 1
  let m1 := if s1 = 60 then x.m + 1 else x.m
  let h1 := if m1 = 60 then x.h + 1 else x.h
  { x with
    s := if s1 = 60 then 0 else s1
    m := if m1 = 60 then 0 else m1
    h := if m1 = 60 ∧ ceiling = some h1 then 0 else h1 }

/-- R141: the running tick. -/
def runningTick (ceiling : Option Nat) (x : HostState) : HostState × List Instr :=
  (x.advance ceiling,
    .wait 1000000 :: renderTime (x.advance ceiling).h (x.advance ceiling).m (x.advance ceiling).s)

/-- R138: an edge is a poll where the previous level was 1 and the current level is 0. -/
def isEdge (last now : Level) : Bool := last && !now

/-- The start/stop input polled at `ss`: its edge's action, and the level remembered "regardless of whether an edge fired"
(R138, R139, R143). -/
def pollStartStop (ss : Level) (x : HostState) : HostState × List Instr :=
  if isEdge x.lastSs ss then ({ (startStopAction x).1 with lastSs := ss }, (startStopAction x).2)
  else ({ x with lastSs := ss }, [])

/-- The reset input polled at `rst` (R138, R140, R143). -/
def pollReset (rst : Level) (x : HostState) : HostState × List Instr :=
  if isEdge x.lastRst rst then ({ (resetAction x).1 with lastRst := rst }, (resetAction x).2)
  else ({ x with lastRst := rst }, [])

/-- The end of an iteration: the running tick while `run` is RUNNING (R141, R143). -/
def tickIfRunning (ceiling : Option Nat) (x : HostState) : HostState × List Instr :=
  match x.run with
  | .running => runningTick ceiling x
  | .paused => (x, [])

/-- R143: one loop iteration, with both inputs sampled at the top. -/
def hostIteration (ceiling : Option Nat) (ss rst : Level) (x : HostState) : HostState × List Instr :=
  let a := pollStartStop ss x
  let b := pollReset rst a.1
  let c := tickIfRunning ceiling b.1
  (c.1, a.2 ++ b.2 ++ c.2)

/-- The commands of a whole run of the host, one pair of input levels for each poll. -/
def hostRun (ceiling : Option Nat) : HostState → List (Level × Level) → HostState × List Instr
  | x, [] => (x, [])
  | x, p :: ps =>
    let a := hostIteration ceiling p.1 p.2 x
    let b := hostRun ceiling a.1 ps
    (b.1, a.2 ++ b.2)

/-- Every command of a run of the source system: the boot sequence, then the control loop from its initial state, with no hours
ceiling (R135 to R143, D26). -/
def sessionCommands (polls : List (Level × Level)) : List Instr :=
  bootCommands ++ (hostRun hoursCeil HostState.initial polls).2

/-! ### The command port -/

/-- Port levels that offer a command (R25). -/
def offer (i : Instr) : Ports := ⟨false, true, encode i⟩

/-- The port levels of a host that offers each command at once and keeps offering it until the block accepts it (R26): the
command's own step, then the next offer for as long as the block is busy. -/
def offerScript : List Instr → List Ports
  | [] => []
  | i :: rest =>
    offer i :: List.replicate (eventSteps (expand i)) (rest.head?.elim Ports.quiet offer) ++ offerScript rest

end Sys2Proof.Machine
end

