-- ==== Sys2Proof/Machine/Observe.lean ====
section
/-! DEFINITION. The observation of a run (00_scope.md R13): the event trace with start times, the waveform, what a receiver
sees on the lines (41_bus_controller.md R97), and the levels on the wires (10_state.md R29). Time is part of the observation
and not of the state (log 4). Every function takes the timing as an argument; the block's own is `blockTiming`. -/

namespace Sys2Proof.Machine

/-! ### Time -/

/-- How much a wait that ends at step `k` lasts beyond its request: any value up to `DELAY_SLACK` (R80, U2). -/
def waitSlack (T : Timing) (k : Nat) : Nat :=
  match T.delaySlack with
  | none => T.slackDraw k
  | some m => min (T.slackDraw k) m

/-- The time step `k` from `s` takes if no reset cuts it: a `Set` the gap `T_EDGE` (R90), a wait a microsecond or, to end, its
slack (R80), an idle or resetting block any time (R31, R180). -/
def fullTime (T : Timing) (k : Nat) (s : State) : Nat :=
  if s.port.rst then T.idleDraw k
  else match s.pending with
    | [] => T.idleDraw k
    | .set _ _ :: _ => T.tEdge
    | .wait _ :: _ => if s.waitLeft = 0 then waitSlack T k else unitsPerMicro T

/-- The time step `k` from `s` takes. Where the next step is a reset, that reset may land anywhere in this one, which then lasts
any part of its time: within a microsecond of a wait, within its slack, within `T_EDGE` (R83, R180; log 3). -/
def stepTime (T : Timing) (k : Nat) (s : State) : Nat :=
  if s.nextEdge.port.rst then min (T.resetCut k) (fullTime T k s) else fullTime T k s

/-- The time `n` steps from `s` take, the first of them step `k`. -/
def elapsed (T : Timing) : Nat → Nat → State → Nat
  | _, 0, _ => 0
  | k, n + 1, s =>
    match step s with
    | .next t => stepTime T k s + elapsed T (k + 1) n t
    | _ => 0

/-! ### The event trace -/

/-- The two `Set` events of a reset, in either order (R180, U7; log 10). -/
def resetEvents (T : Timing) (k : Nat) : List Event :=
  if T.resetSdaFirst k then [.set .sda true, .set .scl true] else [.set .scl true, .set .sda true]

/-- The events that start at step `k` from `s`; a wait starts at the step at which none of it has elapsed. A wait that has
started stays in the trace when a reset cuts it short, though it is not performed to its end (log 26). -/
def startedEvents (T : Timing) (k : Nat) (s : State) : List Event :=
  if s.refused then []
  else if s.port.rst then resetEvents T k
  else match s.pending with
    | [] => []
    | .set l v :: _ => [.set l v]
    | .wait n :: _ => if s.waitLeft = n then [.wait n] else []

/-- A performed event and its start time (R13). -/
structure TimedEvent where
  time : Nat
  event : Event
  deriving DecidableEq, Repr

/-- R13: the event trace of `n` steps from `s`, the first of them step `k` at time `now`. -/
def eventTrace (T : Timing) : Nat → Nat → Nat → State → List TimedEvent
  | _, _, 0, _ => []
  | k, now, n + 1, s =>
    match step s with
    | .next t => (startedEvents T k s).map (TimedEvent.mk now) ++ eventTrace T (k + 1) (now + stepTime T k s) n t
    | _ => []

/-- The time one event takes when it starts at step `k` (R80, R90). -/
def eventTime (T : Timing) (k : Nat) : Event → Nat
  | .set _ _ => T.tEdge
  | .wait n => n * unitsPerMicro T + waitSlack T (k + n)

/-- The start times of a sequence of events performed one after the other from step `k` and time `now` on (R12, R84). -/
def schedule (T : Timing) : Nat → Nat → List Event → List TimedEvent
  | _, _, [] => []
  | k, now, e :: es => ⟨now, e⟩ :: schedule T (k + e.steps) (now + eventTime T k e) es

/-- The time a sequence of events takes from step `k` on. -/
def duration (T : Timing) : Nat → List Event → Nat
  | _, [] => 0
  | k, e :: es => eventTime T k e + duration T (k + e.steps) es

/-! ### The waveform -/

/-- A point of the waveform: the line state right after a change, and its time (R13). -/
structure WavePoint where
  time : Nat
  lines : Lines
  deriving DecidableEq, Repr

/-- R13: the changes a timed sequence of events makes from the line state `a`; an event that changes nothing is not in it. -/
def waveform : Lines → List TimedEvent → List WavePoint
  | _, [] => []
  | a, e :: es =>
    if a.apply e.event = a then waveform a es
    else ⟨e.time, a.apply e.event⟩ :: waveform (a.apply e.event) es

/-- R13: the event trace of the block's own run of `n` steps from `s`. -/
def blockTrace (n : Nat) (s : State) : List TimedEvent := eventTrace blockTiming 0 0 n s

/-- R13: the waveform of the block's own run of `n` steps from `s`. -/
def blockWaveform (n : Nat) (s : State) : List WavePoint := waveform s.lines (blockTrace n s)

/-! ### What a receiver sees -/

/-- R97: what a receiver can read off one change of the lines. -/
inductive Seen where
  /-- SDA falls while SCL is 1. -/
  | start
  /-- SDA rises while SCL is 1. -/
  | stop
  /-- SCL rises; the value of SDA then. -/
  | sample (v : Level)
  deriving DecidableEq, Repr

/-- R97, for one change of the lines from `a` to `b`. -/
def seenAt (a b : Lines) : List Seen :=
  if !a.scl && b.scl then [.sample b.sda]
  else if a.scl && b.scl && a.sda && !b.sda then [.start]
  else if a.scl && b.scl && !a.sda && b.sda then [.stop]
  else []

/-- What a receiver sees, in order, of a sequence of events from the line state `a`, with no other device driving the wires
(R97). -/
def seen : Lines → List Event → List Seen
  | _, [] => []
  | a, e :: es => seenAt a (a.apply e) ++ seen (a.apply e) es

/-- The data samples among what is seen. -/
def samplesOf : List Seen → List Level
  | [] => []
  | .sample v :: rest => v :: samplesOf rest
  | .start :: rest => samplesOf rest
  | .stop :: rest => samplesOf rest

/-- The samples on the SDA wire, where the `j`-th of them finds the environment driving `env j` (R29, R101). -/
def wireSamples (env : Nat → Level) (vs : List Level) : List Level := vs.mapIdx (fun j v => v && env j)

/-- A byte from its bits, most significant first. -/
def byteOfBits (b7 b6 b5 b4 b3 b2 b1 b0 : Level) : Byte :=
  BitVec.ofBool b7 ++ BitVec.ofBool b6 ++ BitVec.ofBool b5 ++ BitVec.ofBool b4 ++
    BitVec.ofBool b3 ++ BitVec.ofBool b2 ++ BitVec.ofBool b1 ++ BitVec.ofBool b0

/-- The bytes in a row of samples: eight data samples and an acknowledge sample each (R46; log 25). -/
def bytesOfSamples : List Level → List Byte
  | b7 :: b6 :: b5 :: b4 :: b3 :: b2 :: b1 :: b0 :: _ :: rest =>
    byteOfBits b7 b6 b5 b4 b3 b2 b1 b0 :: bytesOfSamples rest
  | _ => []

/-! ### The wires -/

/-- R29: `wire_SCL = scl & env_scl`, `wire_SDA = sda & env_sda`. -/
def wireLevels (envScl envSda : Level) (a : Lines) : Lines := ⟨a.scl && envScl, a.sda && envSda⟩

/-- The levels on the block's own wires at step `k` (R29): the environment's drive is free. -/
def State.wires (k : Nat) (s : State) : Lines := wireLevels (Config.envScl k) (Config.envSda k) s.lines

end Sys2Proof.Machine
end

