-- ==== Sys2Proof/Safety.lean ====
section
/-! DEFINITION. What claims are stated in: the line states between commands (41_bus_controller.md R98), the invariant of the
block, and runs without a reset. -/

namespace Sys2Proof.Machine

/-- R98: "The state (1, 0) is never left between commands"; the other three are the idle line states. -/
abbrev Lines.legalIdle (a : Lines) : Prop := a = ⟨true, true⟩ ∨ a = ⟨false, false⟩ ∨ a = ⟨false, true⟩

/-- `wait_left` is "the part of the wait at the head of `pending` not yet elapsed; 0 when the head is not a wait" (R20). -/
abbrev State.waitInRange (s : State) : Prop := s.waitLeft ≤ headWait s.pending

/-- `n` steps of the machine (Host/Core.lean). -/
def runFor (n : Nat) (s : State) : Host.Outcome State Fault Refusal := Host.Core.run Sys2Proof.core n s

/-- The invariant of the block: `wait_left` in range (R20), no `Wait(0)` (R81), a refused model idle (R161), and the lines, once
what is pending is performed, in one of the three states of R98. -/
structure State.Inv (s : State) : Prop where
  waitInRange : s.waitInRange
  noZeroWait : Event.wait 0 ∉ s.pending
  refusedIdle : s.refused = true → s.pending = []
  endsLegal : (s.lines.run s.pending).legalIdle

/-- `rst` is 0 at each of the next `n` steps; the command port may do anything. -/
abbrev State.noReset (n : Nat) (s : State) : Prop := ∀ p ∈ s.edges.take n, p.rst = false

/-- The block takes a command at the next step: not refused, idle, no reset, and the word of `i` offered (R26). -/
abbrev State.accepting (i : Instr) (s : State) : Prop :=
  s.refused = false ∧ s.pending = [] ∧ s.port.rst = false ∧ s.port.cmdValid = true ∧ decode s.port.cmdWord = .ok i

/-- The state once the next `n` port levels are past. -/
def State.skipEdges (n : Nat) (s : State) : State := { s with edges := s.edges.drop n }

/-- The state in which everything pending has been performed. -/
def State.completed (s : State) : State := ((s.withLines (s.lines.run s.pending)).load []).skipEdges (eventSteps s.pending)

end Sys2Proof.Machine
end

