-- ==== Sys2Proof/Certificates/Slice0/Obligations.lean ====
section
/-! DEFINITION. What the model is held to: statements of the spec's rules, none of them proved here. -/

namespace Sys2Proof.Machine

/-! The words of the statements, written from the spec and not from the model's own functions. -/

/-- R43: the bits of a byte in the order of its data clocks; "The k-th data clock of a byte (k = 1..8) carries bit
`b[8-k]`". -/
def Claim.wireBits (b : Byte) : List Level := (List.range 8).map fun j => b.getLsbD (7 - j)

/-- R93: the cell of one bit. -/
def Claim.cell (v : Level) : List Event :=
  [.set .sda v, .set .scl true, .wait 2, .set .scl false, .wait 2]

/-- R93 with `ACK_RELEASE_SDA` = false: a byte and its acknowledge clock. -/
def Claim.byteEvents (b : Byte) : List Event :=
  (Claim.wireBits b).flatMap Claim.cell ++ [.set .scl true, .wait 2, .set .scl false, .wait 2]

/-- R91. -/
def Claim.startEvents : List Event :=
  [.set .sda true, .set .scl true, .wait 2, .set .sda false, .wait 2, .set .scl false, .wait 2]

/-- R92. -/
def Claim.stopEvents : List Event := [.set .sda false, .set .scl true, .wait 2, .set .sda true, .wait 2]

/-- R121: the six encoder bytes by hexadecimal digits, with `c` the control digit and `e` the one with the enable strobe. -/
def Claim.sixBytes (c e : BitVec 4) (v : Byte) : List Byte :=
  let h := v.extractLsb' 4 4
  let l := v.extractLsb' 0 4
  [h ++ c, h ++ e, h ++ c, l ++ c, l ++ e, l ++ c]

/-- R115: the events of one transaction and its settle wait. -/
def Claim.transaction (bytes : List Byte) : List Event :=
  Claim.startEvents ++ (0x4E :: bytes).flatMap Claim.byteEvents ++ Claim.stopEvents ++ [.wait 50]

/-- R101: what a receiver that drives nothing reads of a byte written from SCL low: the eight bits, and at the acknowledge SDA
kept at `b[0]`, or released with `ACK_RELEASE_SDA` = `rel`. -/
def Claim.byteSamples (rel : Level) (b : Byte) : List Seen :=
  (Claim.wireBits b).map .sample ++ [.sample (rel || b.getLsbD 0)]

/-- R115: what a receiver sees of one transaction of the given bytes that begins at SCL level `scl`, by R97. -/
def Claim.transactionSeen (rel scl : Level) (bytes : List Byte) : List Seen :=
  (if scl then [] else [.sample true]) ++ .start :: (0x4E :: bytes).flatMap (Claim.byteSamples rel) ++
    [.sample false, .stop]

/-- R133: a number below 100 as two ASCII digits. -/
def Claim.twoDigits (n : Nat) : List Byte := [BitVec.ofNat 8 (0x30 + n / 10), BitVec.ofNat 8 (0x30 + n % 10)]

/-- The timed events of commands that a host has performed one after the other, each after a pause of its own choice. -/
def Claim.pausedSchedule (T : Timing) (rel : Level) : Nat → Nat → List (Nat × Instr) → List TimedEvent
  | _, _, [] => []
  | k, now, (pause, i) :: rest =>
    schedule T (k + 1) (now + pause) (expandWith rel i) ++
      Claim.pausedSchedule T rel (k + 1 + eventSteps (expandWith rel i))
        (now + pause + duration T (k + 1) (expandWith rel i)) rest

/-- R192: least duration in microseconds, and number of `Set` events. -/
def Claim.leastDuration : Instr → Nat × Nat
  | .start => (6, 4)
  | .stop => (4, 3)
  | .wrb _ => (36, 26)
  | .cmd _ => (312, 189)
  | .dat _ => (312, 189)
  | .wait n => (n, 0)

end Sys2Proof.Machine

open Sys2Proof Sys2Proof.Machine

/-! ### Reset -/

/-- R30: the state after reset, the hardwired constants, and that nothing a step does clears `refused` (a refused state takes no
step at all: ReservedWordMarksAndStops). The values are the spec's own decision D4 (log 9). -/
def Obligations.ResetStateHoldsSpecValues : Prop :=
  State.reset.scl = true ∧ State.reset.sda = true ∧ State.reset.pending = [] ∧ State.reset.waitLeft = 0 ∧
  State.reset.busy = false ∧ State.reset.cmdReady = true ∧ State.reset.refused = false ∧
  qUs = 2 ∧ tSettleUs = 50 ∧ busAddr = 0x4E ∧ ctlCmd = 0x08 ∧ ctlDat = 0x09 ∧ enBit = 0x04 ∧
  ∀ s : State, s.releaseAll.refused = s.refused ∧ s.perform.refused = s.refused ∧ s.refuse.refused = true ∧
    ∀ i t, exec i s = .next t → t.refused = s.refused

/-- R180, R164: with `rst` = 1 the block releases both lines, empties `pending`, clears `wait_left`, is not ready, and accepts no
command whatever is offered; the two releases are in either order, and each order is some timing's. Only the lines that
were 0 change in the waveform, and the receiver sees nothing, a stop condition or a stray sample, by the lines and the
order (95_test_vectors.md L2.6). -/
def Obligations.ResetReleasesLinesAndAbandons : Prop :=
  ∀ s : State, s.refused = false → s.port.rst = true →
    step s = .next { s with scl := true, sda := true, pending := [], waitLeft := 0, edges := s.edges.tail } ∧
    s.cmdReady = false ∧
    (∃ T k, startedEvents T k s = [.set .scl true, .set .sda true]) ∧
    (∃ T k, startedEvents T k s = [.set .sda true, .set .scl true]) ∧
    ∀ T k,
      (startedEvents T k s = [.set .scl true, .set .sda true] ∨ startedEvents T k s = [.set .sda true, .set .scl true]) ∧
      (∀ now, (waveform s.lines ((startedEvents T k s).map (TimedEvent.mk now))).length =
        (if s.scl then 0 else 1) + (if s.sda then 0 else 1)) ∧
      (s.lines = ⟨true, true⟩ → seen s.lines (startedEvents T k s) = []) ∧
      (s.lines = ⟨true, false⟩ → seen s.lines (startedEvents T k s) = [.stop]) ∧
      (s.lines = ⟨false, true⟩ → seen s.lines (startedEvents T k s) = [.sample true]) ∧
      (s.lines = ⟨false, false⟩ → startedEvents T k s = [.set .scl true, .set .sda true] →
        seen s.lines (startedEvents T k s) = [.sample false, .stop]) ∧
      (s.lines = ⟨false, false⟩ → startedEvents T k s = [.set .sda true, .set .scl true] →
        seen s.lines (startedEvents T k s) = [.sample true])

/-! ### Encoding -/

/-- Words of 95_test_vectors.md L2.1 and 30_encoding.md R68. -/
def Obligations.SpecWordsDecode : Prop :=
  decode 0x10000000 = .ok .start ∧ decode 0x20000000 = .ok .stop ∧ decode 0x3000004E = .ok (.wrb 0x4E) ∧
  decode 0x40000028 = .ok (.cmd 0x28) ∧ decode 0x50000041 = .ok (.dat 0x41) ∧ decode 0x600007D0 = .ok (.wait 2000) ∧
  decode 0x60FFFFFF = .ok (.wait 16777215) ∧
  decode 0x00000000 = .error .opcode ∧ decode 0x70000000 = .error .opcode ∧
  decode 0x20800000 = .error .argField ∧ decode 0x50010041 = .error .argField ∧ decode 0x61000000 = .error .zField

/-- Every well-formed command is what its word decodes to. -/
def Obligations.DecodeOfEncode : Prop := ∀ i : Instr, i.WellFormed → decode (encode i) = .ok i

/-- A word that decodes to a command is that command's only word, and the command is well formed. -/
def Obligations.EncodeOfDecode : Prop := ∀ (w : CmdWord) (i : Instr), decode w = .ok i → i.WellFormed ∧ encode i = w

/-- R63 and the first two sentences of R64: which words are reserved, on the bits of the word. -/
def Obligations.ReservedWordsExactly : Prop :=
  ∀ w : CmdWord, (∃ r, decode w = .error r) ↔
    (w.extractLsb' 28 4 = 0 ∨ 7 ≤ (w.extractLsb' 28 4).toNat) ∨
    w.extractLsb' 24 4 ≠ 0 ∨
    ((w.extractLsb' 28 4 = 1 ∨ w.extractLsb' 28 4 = 2) ∧ w.extractLsb' 0 24 ≠ 0) ∨
    ((w.extractLsb' 28 4 = 3 ∨ w.extractLsb' 28 4 = 4 ∨ w.extractLsb' 28 4 = 5) ∧ w.extractLsb' 8 16 ≠ 0)

/-! ### The step -/

/-- When the block takes a command at a step, the step is the command's meaning, past that step's port levels; and the word
that `withFetchWord` offers is what the next step runs (log 12). -/
def Obligations.StepRunsDecodedCommand : Prop :=
  (∀ (s : State) (i : Instr), s.accepting i → step s = exec i { s with edges := s.edges.tail }) ∧
  ∀ (s : State) (nbits w : Nat) (i : Instr), decodeTableWord nbits w = some i →
    step (s.withFetchWord nbits w) = exec i { s with pending := [], waitLeft := 0, refused := false, edges := s.edges.tail }

/-- R26: with the block ready and a word offered, the word's command is accepted at this step; with none offered nothing is
accepted; while busy no offer is looked at, nor queued; under reset none is accepted. -/
def Obligations.CommandAcceptedOnlyWhenReady : Prop :=
  ∀ s : State, s.refused = false →
    (∀ i, s.cmdReady = true → s.port.cmdValid = true → decode s.port.cmdWord = .ok i →
      step s = exec i { s with edges := s.edges.tail }) ∧
    (s.cmdReady = true → s.port.cmdValid = false → step s = .next { s with edges := s.edges.tail }) ∧
    (s.pending ≠ [] → ∀ v w ps, step { s with edges := ⟨false, v, w⟩ :: ps } = .next (State.perform { s with edges := ps })) ∧
    (∀ v w ps, step { s with edges := ⟨true, v, w⟩ :: ps } = .next (State.releaseAll { s with edges := ps }))

/-- R161 as the model splits it over two steps (log 8): the step that accepts a reserved word sets the mark and nothing else, and
from then on every step, whatever the ports, is refused. -/
def Obligations.ReservedWordMarksAndStops : Prop :=
  (∀ (s : State) (r : Reserved), s.refused = false → s.pending = [] → s.port.rst = false → s.port.cmdValid = true →
    decode s.port.cmdWord = .error r → step s = .next { s with refused := true, edges := s.edges.tail }) ∧
  ∀ s : State, s.refused = true → step s = .refused .reservedCommand

/-- R31: an idle block with nothing offered keeps its state, and, reset apart, a line changes only at a step that performs a
`Set` event. -/
def Obligations.LinesHoldUnlessSetPerformed : Prop :=
  (∀ s : State, s.refused = false → s.pending = [] → s.port.rst = false → s.port.cmdValid = false →
    step s = .next { s with edges := s.edges.tail }) ∧
  ∀ s t : State, step s = .next t → s.port.rst = false → t.lines ≠ s.lines →
    ∃ l v rest, s.pending = .set l v :: rest ∧ t.lines = s.lines.set l v

/-- R90: a `Set` at the head writes its line, is removed, and changes nothing else, but that `wait_left` becomes that of the wait
that comes to the head, if any (log 2); it takes `T_EDGE` (log 6), or a part of it where a reset comes next (log 3); and it is
not in the waveform when the line already has the value. -/
def Obligations.SetEventWritesItsLine : Prop :=
  ∀ (s : State) (l : Line) (v : Level) (rest : List Event),
    s.refused = false → s.port.rst = false → s.pending = .set l v :: rest →
    (∃ t, step s = .next t ∧ t.pending = rest ∧ t.waitLeft = headWait rest ∧ t.refused = false ∧ t.edges = s.edges.tail ∧
      (l = .scl → t.scl = v ∧ t.sda = s.sda) ∧ (l = .sda → t.sda = v ∧ t.scl = s.scl)) ∧
    (∀ T k, stepTime T k s ≤ T.tEdge ∧ (s.nextEdge.port.rst = false → stepTime T k s = T.tEdge)) ∧
    ∀ time, s.lines.set l v = s.lines → waveform s.lines [⟨time, .set l v⟩] = []

/-- R83: a wait with time left, without reset, only lets time pass, a microsecond at a step (the model's cut of the time, log 3),
whatever is offered; and the wait is over before the next event comes. -/
def Obligations.OnlyResetCutsAWait : Prop :=
  ∀ (s t : State) (n : Nat) (rest : List Event), step s = .next t → s.pending = .wait n :: rest →
    (s.port.rst = false → s.waitLeft ≠ 0 →
      t.pending = s.pending ∧ t.waitLeft + 1 = s.waitLeft ∧ t.scl = s.scl ∧ t.sda = s.sda ∧ t.refused = s.refused) ∧
    (t.pending ≠ s.pending → s.port.rst = true ∨ (s.waitLeft = 0 ∧ t.pending = rest))

/-- R80: a wait of `n` lasts at least `n` microseconds and at most `DELAY_SLACK` more, any such duration being some draw's; the
lines keep their values, the block is busy and takes no command until it ends. (That it takes `n + 1` steps is the model's
cut of the time: log 3.) -/
def Obligations.WaitLastsAtLeastItsRequest : Prop :=
  ∀ (s : State) (n : Nat) (rest : List Event),
    s.refused = false → s.pending = .wait n :: rest → s.waitLeft = n → s.noReset (n + 1) →
    (∃ t, runFor (n + 1) s = .next t ∧ t.pending = rest ∧ t.lines = s.lines) ∧
    (∀ j, j ≤ n → ∃ t, runFor j s = .next t ∧ t.busy = true ∧ t.pending = s.pending ∧ t.lines = s.lines) ∧
    (∀ T k, n * unitsPerMicro T ≤ elapsed T k (n + 1) s ∧
      ∀ m, T.delaySlack = some m → elapsed T k (n + 1) s ≤ n * unitsPerMicro T + m) ∧
    (∀ T k x, (∀ m, T.delaySlack = some m → x ≤ m) →
      ∃ T' : Timing, T'.unitsLess1 = T.unitsLess1 ∧ T'.tEdge = T.tEdge ∧ T'.delaySlack = T.delaySlack ∧
        elapsed T' k (n + 1) s = n * unitsPerMicro T + x)

/-- R84: two waits in a row take the sum of their durations, at least `n1 + n2` microseconds, the second beginning when the
first has ended (steps as in log 3). -/
def Obligations.BackToBackWaitsAdd : Prop :=
  ∀ (s : State) (n1 n2 : Nat) (rest : List Event),
    s.refused = false → s.pending = .wait n1 :: .wait n2 :: rest → s.waitLeft = n1 → s.noReset (n1 + 1 + (n2 + 1)) →
    ∀ T k now, ∃ d1 d2, n1 * unitsPerMicro T ≤ d1 ∧ n2 * unitsPerMicro T ≤ d2 ∧
      elapsed T k (n1 + 1 + (n2 + 1)) s = d1 + d2 ∧
      eventTrace T k now (n1 + 1 + (n2 + 1)) s = [⟨now, .wait n1⟩, ⟨now + d1, .wait n2⟩]

/-! ### The commands -/

/-- `START` completes: accepted in every state, its seven events pending, nothing else changed (R91, R95). -/
def Obligations.StartAccepted : Prop :=
  ∀ s : State, exec .start s = .next { s with pending := Claim.startEvents, waitLeft := 0 }

/-- `STOP` completes: accepted in every state, its five events pending, nothing else changed (R92, R95). -/
def Obligations.StopAccepted : Prop :=
  ∀ s : State, exec .stop s = .next { s with pending := Claim.stopEvents, waitLeft := 0 }

/-- `WRB b` completes for every byte: its 44 events pending, most significant bit first (R93, R95; `ACK_RELEASE_SDA` = false is
the spec's decision D7, log 7). -/
def Obligations.WrbAccepted : Prop :=
  ∀ (b : Byte) (s : State), exec (.wrb b) s = .next { s with pending := Claim.byteEvents b, waitLeft := 0 }

/-- `CMD v` completes for every payload: one transaction of the command path pending (R113, R121; `ACK_RELEASE_SDA` = false is the
spec's decision D7, log 7). -/
def Obligations.CmdAccepted : Prop :=
  ∀ (v : Byte) (s : State),
    exec (.cmd v) s = .next { s with pending := Claim.transaction (Claim.sixBytes 0x8 0xC v), waitLeft := 0 }

/-- `DAT v` completes for every character code: one transaction of the data path pending (R114, R121; `ACK_RELEASE_SDA` = false is
the spec's decision D7, log 7). -/
def Obligations.DatAccepted : Prop :=
  ∀ (v : Byte) (s : State),
    exec (.dat v) s = .next { s with pending := Claim.transaction (Claim.sixBytes 0x9 0xD v), waitLeft := 0 }

/-- `WAIT n` completes for every count: one wait, entered at once (log 2), or for 0 nothing, the block ready again (R81). -/
def Obligations.WaitAccepted : Prop :=
  (∀ s : State, exec (.wait 0) s = .next { s with pending := [], waitLeft := 0 }) ∧
  ∀ (n : Nat) (s : State), 0 < n → exec (.wait n) s = .next { s with pending := [.wait n], waitLeft := n }

/-- The frame of every command: acceptance changes no line, no mark and no port level; only `pending` and `wait_left`. (The block has
no register, flag or memory: R21, R24, R40.) -/
def Obligations.AcceptanceFrame : Prop :=
  ∀ (i : Instr) (s t : State), exec i s = .next t →
    t.scl = s.scl ∧ t.sda = s.sda ∧ t.refused = s.refused ∧ t.edges = s.edges ∧ t.pending = expand i

/-- No command faults or is refused, in any state (R95 says it of every line state; that it is said of busy states too is the
model's choice, log 13: the block accepts none there); and no step answers a fault, which is so because the model's type of
faults is empty (R160; log 14). -/
def Obligations.NoCommandFailsAndNoStepFaults : Prop :=
  (∀ (i : Instr) (s : State), ∃ t, exec i s = .next t) ∧ ∀ (s : State) (f : Fault), step s ≠ .fault f

/-- R12, R23: an accepted command's events are performed one at a time, all of them, in order; the block is busy until the
last is done, whatever words are offered meanwhile, and then idle with the lines where the events leave them. The trace of
the run is the expansion, each event at the time the ones before it end. (Steps as in log 3, the time to the acceptance edge
as in log 16.) -/
def Obligations.CommandRunsToCompletion : Prop :=
  ∀ (i : Instr) (s : State), s.accepting i → s.noReset (1 + eventSteps (expand i)) →
    runFor (1 + eventSteps (expand i)) s =
      .next { s with scl := (s.lines.run (expand i)).scl, sda := (s.lines.run (expand i)).sda, pending := [], waitLeft := 0,
                     edges := s.edges.drop (1 + eventSteps (expand i)) } ∧
    (∀ j, j < eventSteps (expand i) → ∃ t, runFor (1 + j) s = .next t ∧ t.busy = true) ∧
    ∀ T k now, eventTrace T k now (1 + eventSteps (expand i)) s = schedule T (k + 1) (now + T.idleDraw k) (expand i)

/-- R51: a host that offers commands one after the other has all their events performed, in the order of the commands and
within each in the order of its expansion, and no other event (offered as log 12 says). -/
def Obligations.OfferedCommandsRunInOrder : Prop :=
  ∀ (is : List Instr) (s : State), (∀ i ∈ is, i.WellFormed) → s.refused = false → s.pending = [] →
    s.edges = offerScript is →
    (∃ t, runFor (offerScript is).length s = .next t ∧ t.pending = [] ∧ t.refused = false ∧
      t.lines = s.lines.run (is.flatMap expand)) ∧
    ∀ T k now, (eventTrace T k now (offerScript is).length s).map TimedEvent.event = is.flatMap expand

/-- R120: the raw commands and the encoder command have the same expansion, event for event, whatever `ACK_RELEASE_SDA`; and run
from the same idle state by a host that offers them (offerScript, the model's form of such a host: log 12) they perform the
same events (with `ACK_RELEASE_SDA` = false, D7, log 7) and end in the same line state. -/
def Obligations.RawCommandsEqualEncoderCommand : Prop :=
  ∀ (rs : Bool) (v : Byte) (s : State), s.refused = false → s.pending = [] →
    (∀ rel, (npeRaw rs v).flatMap (expandWith rel) = expandWith rel (if rs then .dat v else .cmd v)) ∧
    (∃ t u, runFor (offerScript (npeRaw rs v)).length { s with edges := offerScript (npeRaw rs v) } = .next t ∧
      runFor (offerScript [if rs then .dat v else .cmd v]).length
        { s with edges := offerScript [if rs then .dat v else .cmd v] } = .next u ∧
      t.lines = u.lines ∧ t.pending = [] ∧ u.pending = []) ∧
    ∀ T k now,
      (eventTrace T k now (offerScript (npeRaw rs v)).length { s with edges := offerScript (npeRaw rs v) }).map
          TimedEvent.event =
        (eventTrace T k now (offerScript [if rs then .dat v else .cmd v]).length
          { s with edges := offerScript [if rs then .dat v else .cmd v] }).map TimedEvent.event

/-! ### Line states -/

/-- The end state of each command, from every line state (R91 to R93, R98, R113, R114), and of `WRB` when SDA is released. -/
def Obligations.EndLinesOfCommands : Prop :=
  ∀ (a : Lines) (b v : Byte) (n : Nat),
    a.run (expand .start) = ⟨false, false⟩ ∧ a.run (expand .stop) = ⟨true, true⟩ ∧
    a.run (expand (.wrb b)) = ⟨false, b.getLsbD 0⟩ ∧ a.run (expandWith true (.wrb b)) = ⟨false, true⟩ ∧
    a.run (expand (.cmd v)) = ⟨true, true⟩ ∧ a.run (expand (.dat v)) = ⟨true, true⟩ ∧ a.run (expand (.wait n)) = a

/-- The invariant holds after reset, and a state that meets it and is idle has one of the three line states of R98. -/
def Obligations.InvariantAtReset : Prop :=
  State.reset.Inv ∧
  ∀ s : State, s.Inv → s.pending = [] → s.lines ≠ ⟨true, false⟩ ∧ s.waitLeft = 0

/-- Every step keeps the invariant: `wait_left` in range, no `Wait(0)`, a refused model idle, and the lines never to be left at
(1, 0) (R20, R81, R98, R161). -/
def Obligations.StepKeepsInvariant : Prop := ∀ s t : State, s.Inv → step s = .next t → t.Inv

/-! ### What a receiver sees -/

/-- R99: what a receiver sees of each raw command from each line state between commands, for both values of
`ACK_RELEASE_SDA`. -/
def Obligations.ReceiverSeesRawCommands : Prop :=
  ∀ (b : Byte) (n : Nat) (x rel : Level),
    seen ⟨true, true⟩ (expandWith rel .start) = [.start] ∧
    seen ⟨false, x⟩ (expandWith rel .start) = [.sample true, .start] ∧
    seen ⟨true, true⟩ (expandWith rel .stop) = [.start, .stop] ∧
    seen ⟨false, x⟩ (expandWith rel .stop) = [.sample false, .stop] ∧
    seen ⟨true, true⟩ (expandWith rel (.wrb b)) =
      (if b.getLsbD 7 then [] else [.start]) ++ (Claim.byteSamples rel b).tail ∧
    seen ⟨false, x⟩ (expandWith rel (.wrb b)) = Claim.byteSamples rel b ∧
    (∀ a : Lines, seen a (expandWith rel (.wait n)) = [])

/-- R43: nine clocks for a byte written from SCL low, the k-th carrying `b[8-k]`, with no start or stop condition among them; on the
wire the ninth reads `sda & env_sda` (R101), 0 whenever the receiver acknowledges. -/
def Obligations.ByteGoesOutMsbFirst : Prop :=
  ∀ (b : Byte) (x rel : Level),
    (seen ⟨false, x⟩ (expandWith rel (.wrb b))).length = 9 ∧
    (∀ k, 1 ≤ k → k ≤ 8 → (seen ⟨false, x⟩ (expandWith rel (.wrb b)))[k - 1]? = some (.sample (b.getLsbD (8 - k)))) ∧
    ∀ env : Nat → Level, (∀ j, j < 8 → env j = true) →
      wireSamples env (samplesOf (seen ⟨false, x⟩ (expandWith rel (.wrb b)))) =
        Claim.wireBits b ++ [(rel || b.getLsbD 0) && env 8]

/-- A receiver that groups the samples by nine reads back exactly the bytes written, any number of them (R46, R101). -/
def Obligations.ReceiverReadsBytesWritten : Prop :=
  ∀ (bs : List Byte) (x rel : Level),
    bytesOfSamples (samplesOf (seen ⟨false, x⟩ (bs.flatMap fun b => expandWith rel (.wrb b)))) = bs

/-- R67: `XFER` from an idle bus is one start condition, the address and the bytes in order, and one stop condition after the
clock rise of `STOP`, for both values of `ACK_RELEASE_SDA`. -/
def Obligations.XferIsOneTransaction : Prop :=
  ∀ (a : Byte) (bs : List Byte) (rel : Level),
    seen ⟨true, true⟩ ((xfer a bs).flatMap (expandWith rel)) =
      .start :: (a :: bs).flatMap (Claim.byteSamples rel) ++ [.sample false, .stop]

/-- R115: whatever the host offers meanwhile, a receiver sees of a `CMD` or `DAT` exactly one start condition, the address byte, the
six bytes and one stop condition; from SCL low a clock rise comes before the (repeated) start. The last event is the settle
wait. The same is so of the expansion for either value of `ACK_RELEASE_SDA`; the run is the block's, with the value false (D7,
log 7). (Steps as in log 3.) -/
def Obligations.EncoderCommandIsOneTransaction : Prop :=
  ∀ (rs : Bool) (v : Byte) (i : Instr) (s : State), i = (if rs then .dat v else .cmd v) → s.accepting i →
    s.lines.legalIdle → s.noReset (1 + eventSteps (expand i)) →
    let bytes := if rs then Claim.sixBytes 0x9 0xD v else Claim.sixBytes 0x8 0xC v
    (∀ rel, seen s.lines (expandWith rel i) = Claim.transactionSeen rel s.scl bytes) ∧
    ∀ T k now,
      let events := (eventTrace T k now (1 + eventSteps (expand i)) s).map TimedEvent.event
      seen s.lines events = Claim.transactionSeen ackReleaseSda s.scl bytes ∧ events.getLast? = some (.wait 50)

/-! ### The encoder's bytes -/

/-- R110, R111, R112: the two nibble fields, the control pattern and the two triples, high nibble first. -/
def Obligations.EncoderMakesTwoTriples : Prop :=
  ∀ (rs : Bool) (v : Byte),
    let c : Byte := 0x08 ||| (if rs then 1 else 0)
    let hi : Byte := v &&& 0xF0
    let lo : Byte := (v <<< 4) &&& 0xF0
    encoderBytes rs v = [hi ||| c, hi ||| c ||| 0x04, hi ||| c, lo ||| c, lo ||| c ||| 0x04, lo ||| c]

/-- R121: the six bytes by hexadecimal digits. -/
def Obligations.EncoderByteTable : Prop :=
  ∀ v : Byte, encoderBytes false v = Claim.sixBytes 0x8 0xC v ∧ encoderBytes true v = Claim.sixBytes 0x9 0xD v

/-- R117, R118: over the six bytes the enable bit is 0 1 0 0 1 0, and the backlight, the unnamed bit, register select and the
nibble are the same throughout each triple. -/
def Obligations.EnableStrobesFrameEachNibble : Prop :=
  ∀ (rs : Bool) (v : Byte),
    (encoderBytes rs v).map (·.getLsbD 2) = [false, true, false, false, true, false] ∧
    (∀ y ∈ encoderBytes rs v, y.getLsbD 3 = true ∧ y.getLsbD 1 = false ∧ y.getLsbD 0 = rs) ∧
    (∀ y ∈ (encoderBytes rs v).take 3, y.extractLsb' 4 4 = v.extractLsb' 4 4) ∧
    (∀ y ∈ (encoderBytes rs v).drop 3, y.extractLsb' 4 4 = v.extractLsb' 0 4)

/-! ### Counts and time -/

/-- R102: events and clock rises of the raw commands, for both values of `ACK_RELEASE_SDA`. -/
def Obligations.RawCommandEventCounts : Prop :=
  ∀ (b : Byte) (x rel : Level),
    setCount (expandWith rel .start) = 4 ∧ waitCount (expandWith rel .start) = 3 ∧
    setCount (expandWith rel .stop) = 3 ∧ waitCount (expandWith rel .stop) = 2 ∧
    setCount (expandWith rel (.wrb b)) = (if rel then 27 else 26) ∧ waitCount (expandWith rel (.wrb b)) = 18 ∧
    (samplesOf (seen ⟨false, x⟩ (expandWith rel .start))).length = 1 ∧
    (samplesOf (seen ⟨false, x⟩ (expandWith rel .stop))).length = 1 ∧
    (samplesOf (seen ⟨false, x⟩ (expandWith rel (.wrb b)))).length = 9

/-- R119: events, least duration and clock rises of the encoder commands, for both values of `ACK_RELEASE_SDA`. -/
def Obligations.EncoderCommandCounts : Prop :=
  ∀ (v : Byte) (rel : Level) (i : Instr), i = .cmd v ∨ i = .dat v →
    setCount (expandWith rel i) = (if rel then 196 else 189) ∧ waitCount (expandWith rel i) = 132 ∧
    leastMicros (expandWith rel i) = 312 ∧
    (samplesOf (seen ⟨true, true⟩ (expandWith rel i))).length = 64

/-- R192: from acceptance to `busy` falling a command takes at least the table's waits and `T_EDGE` for each `Set`, whatever the
timing. -/
def Obligations.LeastCommandDurations : Prop :=
  ∀ (i : Instr) (s t : State), s.refused = false → exec i s = .next t → t.noReset (eventSteps (expand i)) →
    ∀ T k, (Claim.leastDuration i).1 * unitsPerMicro T + (Claim.leastDuration i).2 * T.tEdge ≤
      elapsed T k (eventSteps (expand i)) t

/-- R91 to R93, R100: in every command each `Set` of the clock line is followed at once by a wait of a quantum, so that, without a
reset, the next `Set` of either line starts at least `Q` and `T_EDGE` after it: each clock level lasts at least `Q`, R100's
bound. (The `T_EDGE` over that bound rests on log 6: each `Set` takes `T_EDGE`, also before a wait, as R90 and R192 give it.) -/
def Obligations.ClockLevelsLastAQuantum : Prop :=
  ∀ (i : Instr) (rel v : Level),
    (∀ pre rest, expandWith rel i = pre ++ .set .scl v :: rest → ∃ more, rest = .wait 2 :: more) ∧
    ∀ (T : Timing) (k now t : Nat) (pre rest : List TimedEvent),
      schedule T k now (expandWith rel i) = pre ++ ⟨t, .set .scl v⟩ :: rest →
      ∀ e ∈ rest, e.event.isSet = true → t + T.tEdge + 2 * unitsPerMicro T ≤ e.time

/-- R82: the tick count is the ceiling of `n * f / 1 000 000`, so it lasts at least `n` microseconds and less than one tick
period more; and `DELAY_SLACK` under the rule's bound admits up to one tick period of extra duration: whatever the timing, each
such duration is what a draw gives a wait. The block's own timing is under that bound. -/
def Obligations.TickCountIsCeiling : Prop :=
  (∀ f n : Nat, n * f ≤ minTicks f n * 1000000 ∧ minTicks f n * 1000000 < n * f + 1000000) ∧
  (∀ f T k x, 0 < f → x * f ≤ 1000000 * unitsPerMicro T →
    waitSlack (admitTick f { T with slackDraw := fun _ => x }) k = x) ∧
  (0 < Config.fTickHz ∧ ∀ m, blockTiming.delaySlack = some m → 1000000 * unitsPerMicro blockTiming ≤ m * Config.fTickHz)

/-! ### The ports and the wires -/

/-- R20, R25: the outputs as functions of the state and the reset input. -/
def Obligations.OutputsFollowState : Prop :=
  ∀ s : State, (s.busy = true ↔ s.pending ≠ []) ∧ s.cmdReady = (!s.busy && !s.port.rst) ∧
    s.sclOe = !s.scl ∧ s.sdaOe = !s.sda

/-- R29: a wire is the block's output ANDed with the environment's drive: low when either pulls it low. -/
def Obligations.WireIsLowWhenAnyonePulls : Prop :=
  ∀ (k : Nat) (s : State), (s.scl = false → (s.wires k).scl = false) ∧ (s.sda = false → (s.wires k).sda = false) ∧
    (s.scl = true → (s.wires k).scl = Config.envScl k) ∧ (s.sda = true → (s.wires k).sda = Config.envSda k)

/-! ### The host software (outside the block, 43_host_sequences.md) -/

/-- R131: the cursor address, modulo 256; in the tested range it does not wrap. -/
def Obligations.SetCursorAddress : Prop :=
  ∀ row col : Nat, ∃ v, setCursor row col = .cmd v ∧
    v.toNat = ((if row = 0 then 0x80 else 0xC0) + col) % 256 ∧
    (col < 40 → v.toNat = (if row = 0 then 0x80 else 0xC0) + col)

/-- R142: a second's advance adds one second to the time, keeps minutes and seconds below 60, and with a ceiling wraps the hours
to 0 at it. -/
def Obligations.TimeAdvanceAddsOneSecond : Prop :=
  ∀ x : HostState, x.m < 60 → x.s < 60 →
    (let y := x.advance none
     y.h * 3600 + y.m * 60 + y.s = x.h * 3600 + x.m * 60 + x.s + 1 ∧ y.m < 60 ∧ y.s < 60 ∧
     y.run = x.run ∧ y.lastSs = x.lastSs ∧ y.lastRst = x.lastRst) ∧
    ∀ c, x.h < c →
      let y := x.advance (some c)
      y.h < c ∧ y.m < 60 ∧ y.s < 60 ∧ y.run = x.run ∧ y.lastSs = x.lastSs ∧ y.lastRst = x.lastRst ∧
      (y.h * 3600 + y.m * 60 + y.s = x.h * 3600 + x.m * 60 + x.s + 1 ∨
        (y.h = 0 ∧ y.m = 0 ∧ y.s = 0 ∧ x.h + 1 = c ∧ x.m = 59 ∧ x.s = 59))

/-- R138 to R140, R143: an iteration toggles `run` exactly on a start/stop edge, a reset edge never changes it, both levels are
remembered, and with no edge while paused nothing is issued. -/
def Obligations.IterationTogglesOnStartStopEdgeOnly : Prop :=
  ∀ (ceiling : Option Nat) (ss rst : Level) (x : HostState),
    let y := hostIteration ceiling ss rst x
    y.1.run = (if x.lastSs = true ∧ ss = false then x.run.toggle else x.run) ∧
    y.1.lastSs = ss ∧ y.1.lastRst = rst ∧
    (x.lastRst = true → rst = false → y.1.run = .paused → y.1.h = 0 ∧ y.1.m = 0 ∧ y.1.s = 0) ∧
    (¬(x.lastSs = true ∧ ss = false) → ¬(x.lastRst = true ∧ rst = false) → x.run = .paused →
      y.2 = [] ∧ y.1 = { x with lastSs := ss, lastRst := rst })

/-- R133, R134: the time is one cursor command to row 1, column 0, and eight characters, whatever the fields: `HH:MM:SS` for
fields up to 99, and for hours of three digits the first eight characters of the longer text (D25; characters in ASCII, log
20). -/
def Obligations.RenderTimeIsNineCommands : Prop :=
  ∀ h m s : Nat,
    (∃ cs : List Byte, cs.length = 8 ∧ renderTime h m s = .cmd 0xC0 :: cs.map Instr.dat) ∧
    (h ≤ 99 → m ≤ 99 → s ≤ 99 → renderTime h m s = .cmd 0xC0 ::
      (Claim.twoDigits h ++ [0x3A] ++ Claim.twoDigits m ++ [0x3A] ++ Claim.twoDigits s).map Instr.dat) ∧
    (100 ≤ h → h ≤ 999 → m ≤ 99 → s ≤ 99 → renderTime h m s = .cmd 0xC0 ::
      ([BitVec.ofNat 8 (0x30 + h / 100)] ++ Claim.twoDigits (h % 100) ++ [0x3A] ++ Claim.twoDigits m ++ [0x3A] ++
        [BitVec.ofNat 8 (0x30 + s / 10)]).map Instr.dat)

/-- Every command the host software issues has a word: the bring-up with any delays, the boot display, and every run of the
control loop. -/
def Obligations.HostCommandsAreWellFormed : Prop :=
  (∀ (b : BringUp), ∀ i ∈ bringUpCommands b, i.WellFormed) ∧
  (∀ label0, ∀ i ∈ bootDisplay label0, i.WellFormed) ∧
  ∀ (ceiling : Option Nat) (polls : List (Level × Level)) (x : HostState), ∀ i ∈ (hostRun ceiling x polls).2, i.WellFormed

/-- R66: what assembles has a word; an immediate that fits, or for `WRB` and `DAT` an ASCII character, assembles to its command; an
immediate that does not fit is an error, not a truncation. -/
def Obligations.AssemblerNeverTruncates : Prop :=
  (∀ line is, assembleLine line = some is → ∀ i ∈ is, i.WellFormed) ∧
  assembleOps ['S', 'T', 'A', 'R', 'T'] [] = some [.start] ∧ assembleOps ['S', 'T', 'O', 'P'] [] = some [.stop] ∧
  (∀ n, n < 256 → assembleOps ['W', 'R', 'B'] [.num n] = some [.wrb (BitVec.ofNat 8 n)] ∧
    assembleOps ['C', 'M', 'D'] [.num n] = some [.cmd (BitVec.ofNat 8 n)] ∧
    assembleOps ['D', 'A', 'T'] [.num n] = some [.dat (BitVec.ofNat 8 n)]) ∧
  (∀ n, n < 2 ^ 24 → assembleOps ['W', 'A', 'I', 'T'] [.num n] = some [.wait n]) ∧
  (∀ c : Char, c.toNat < 128 → assembleOps ['W', 'R', 'B'] [.chr c] = some [.wrb (BitVec.ofNat 8 c.toNat)] ∧
    assembleOps ['D', 'A', 'T'] [.chr c] = some [.dat (BitVec.ofNat 8 c.toNat)]) ∧
  (∀ n, 256 ≤ n → assembleOps ['W', 'R', 'B'] [.num n] = none ∧ assembleOps ['C', 'M', 'D'] [.num n] = none ∧
    assembleOps ['D', 'A', 'T'] [.num n] = none) ∧
  (∀ n, 2 ^ 24 ≤ n → assembleOps ['W', 'A', 'I', 'T'] [.num n] = none)

/-! ### A reset within a wait, and the intervals of the waveform -/

/-- R83, R180: a reset may end a wait at any time: at any instant of a microsecond of it, and at any instant of its slack. For the
step before the reset the instant is a free draw (log 3); the trace holds the wait that was cut (log 26) and the two `Set`
events of the reset at that instant. -/
def Obligations.ResetLandsAnywhereInAWait : Prop :=
  ∀ (s : State) (n j x k now : Nat) (rest : List Event) (T : Timing),
    s.refused = false → s.pending = .wait n :: rest → s.waitLeft = n → j ≤ n → s.noReset (j + 1) →
    (s.skipEdges (j + 1)).port.rst = true → j * unitsPerMicro T ≤ x → (j < n → x ≤ (j + 1) * unitsPerMicro T) →
    (j = n → ∀ m, T.delaySlack = some m → x ≤ n * unitsPerMicro T + m) →
    ∃ T' : Timing, T'.unitsLess1 = T.unitsLess1 ∧ T'.tEdge = T.tEdge ∧ T'.delaySlack = T.delaySlack ∧
      eventTrace T' k now (j + 2) s = ⟨now, .wait n⟩ :: (resetEvents T' (k + j + 1)).map (TimedEvent.mk (now + x))

/-- R100, on the waveform of any commands from an idle line state, with any pauses between them and no reset: after a change of
the clock line, and after a start or stop condition, no line changes for at least `Q` and `T_EDGE` (clock high and low times,
data hold, start hold, repeated-start setup, stop setup); a change of the data line at SCL low is followed by the clock rise
exactly `T_EDGE` later (data setup); and a command ends at least `Q` after its last change (bus free). (Each `Set` takes
`T_EDGE`, also before a wait: R90, R192, log 6.) -/
def Obligations.WaveformKeepsTimingBounds : Prop :=
  ∀ (T : Timing) (rel : Level) (a : Lines), a.legalIdle →
    (∀ (k now : Nat) (host : List (Nat × Instr)) (pre : List WavePoint) (p q : WavePoint) (post : List WavePoint),
      waveform a (Claim.pausedSchedule T rel k now host) = pre ++ p :: q :: post →
      let before := (pre.getLast?.map WavePoint.lines).getD a
      (before.scl ≠ p.lines.scl ∨ p.lines.scl = true → p.time + 2 * unitsPerMicro T + T.tEdge ≤ q.time) ∧
      (before.scl = p.lines.scl → p.lines.scl = false → q.lines.scl = true ∧ q.time = p.time + T.tEdge)) ∧
    ∀ (k now : Nat) (i : Instr), ∀ p ∈ waveform a (schedule T k now (expandWith rel i)),
      p.time + 2 * unitsPerMicro T + T.tEdge ≤ now + duration T k (expandWith rel i)
end

