-- ==== Sys2Proof/Laws/State.lean ====
section
/-! SUPPORT. One lemma for each field of the state and each update of it, so that no proof unfolds a record update. -/

namespace Sys2Proof.Machine

variable (s : State)

@[simp] theorem State.withLines_scl (a : Lines) : (s.withLines a).scl = a.scl := rfl
@[simp] theorem State.withLines_sda (a : Lines) : (s.withLines a).sda = a.sda := rfl
@[simp] theorem State.withLines_pending (a : Lines) : (s.withLines a).pending = s.pending := rfl
@[simp] theorem State.withLines_waitLeft (a : Lines) : (s.withLines a).waitLeft = s.waitLeft := rfl
@[simp] theorem State.withLines_refused (a : Lines) : (s.withLines a).refused = s.refused := rfl
@[simp] theorem State.withLines_edges (a : Lines) : (s.withLines a).edges = s.edges := rfl

@[simp] theorem State.load_scl (es : List Event) : (s.load es).scl = s.scl := rfl
@[simp] theorem State.load_sda (es : List Event) : (s.load es).sda = s.sda := rfl
@[simp] theorem State.load_pending (es : List Event) : (s.load es).pending = es := rfl
@[simp] theorem State.load_waitLeft (es : List Event) : (s.load es).waitLeft = headWait es := rfl
@[simp] theorem State.load_refused (es : List Event) : (s.load es).refused = s.refused := rfl
@[simp] theorem State.load_edges (es : List Event) : (s.load es).edges = s.edges := rfl

@[simp] theorem State.passTime_scl (t : Nat) : (s.passTime t).scl = s.scl := rfl
@[simp] theorem State.passTime_sda (t : Nat) : (s.passTime t).sda = s.sda := rfl
@[simp] theorem State.passTime_pending (t : Nat) : (s.passTime t).pending = s.pending := rfl
@[simp] theorem State.passTime_waitLeft (t : Nat) : (s.passTime t).waitLeft = s.waitLeft - t := rfl
@[simp] theorem State.passTime_refused (t : Nat) : (s.passTime t).refused = s.refused := rfl
@[simp] theorem State.passTime_edges (t : Nat) : (s.passTime t).edges = s.edges := rfl

@[simp] theorem State.refuse_scl : (s.refuse).scl = s.scl := rfl
@[simp] theorem State.refuse_sda : (s.refuse).sda = s.sda := rfl
@[simp] theorem State.refuse_pending : (s.refuse).pending = s.pending := rfl
@[simp] theorem State.refuse_waitLeft : (s.refuse).waitLeft = s.waitLeft := rfl
@[simp] theorem State.refuse_refused : (s.refuse).refused = true := rfl
@[simp] theorem State.refuse_edges : (s.refuse).edges = s.edges := rfl

@[simp] theorem State.releaseAll_scl : (s.releaseAll).scl = true := rfl
@[simp] theorem State.releaseAll_sda : (s.releaseAll).sda = true := rfl
@[simp] theorem State.releaseAll_pending : (s.releaseAll).pending = [] := rfl
@[simp] theorem State.releaseAll_waitLeft : (s.releaseAll).waitLeft = 0 := rfl
@[simp] theorem State.releaseAll_refused : (s.releaseAll).refused = s.refused := rfl
@[simp] theorem State.releaseAll_edges : (s.releaseAll).edges = s.edges := rfl

@[simp] theorem State.nextEdge_scl : (s.nextEdge).scl = s.scl := rfl
@[simp] theorem State.nextEdge_sda : (s.nextEdge).sda = s.sda := rfl
@[simp] theorem State.nextEdge_pending : (s.nextEdge).pending = s.pending := rfl
@[simp] theorem State.nextEdge_waitLeft : (s.nextEdge).waitLeft = s.waitLeft := rfl
@[simp] theorem State.nextEdge_refused : (s.nextEdge).refused = s.refused := rfl
@[simp] theorem State.nextEdge_edges : (s.nextEdge).edges = s.edges.tail := rfl

@[simp] theorem State.skipEdges_scl (n : Nat) : (s.skipEdges n).scl = s.scl := rfl
@[simp] theorem State.skipEdges_sda (n : Nat) : (s.skipEdges n).sda = s.sda := rfl
@[simp] theorem State.skipEdges_pending (n : Nat) : (s.skipEdges n).pending = s.pending := rfl
@[simp] theorem State.skipEdges_waitLeft (n : Nat) : (s.skipEdges n).waitLeft = s.waitLeft := rfl
@[simp] theorem State.skipEdges_refused (n : Nat) : (s.skipEdges n).refused = s.refused := rfl
@[simp] theorem State.skipEdges_edges (n : Nat) : (s.skipEdges n).edges = s.edges.drop n := rfl

@[simp] theorem State.offering_scl (w : CmdWord) : (s.offering w).scl = s.scl := rfl
@[simp] theorem State.offering_sda (w : CmdWord) : (s.offering w).sda = s.sda := rfl
@[simp] theorem State.offering_pending (w : CmdWord) : (s.offering w).pending = [] := rfl
@[simp] theorem State.offering_waitLeft (w : CmdWord) : (s.offering w).waitLeft = 0 := rfl
@[simp] theorem State.offering_refused (w : CmdWord) : (s.offering w).refused = false := rfl
@[simp] theorem State.offering_edges (w : CmdWord) : (s.offering w).edges = ⟨false, true, w⟩ :: s.edges.tail := rfl

@[simp] theorem State.withLines_lines (a : Lines) : (s.withLines a).lines = a := rfl
@[simp] theorem State.load_lines (es : List Event) : (s.load es).lines = s.lines := rfl
@[simp] theorem State.passTime_lines (t : Nat) : (s.passTime t).lines = s.lines := rfl
@[simp] theorem State.refuse_lines : (s.refuse).lines = s.lines := rfl
@[simp] theorem State.releaseAll_lines : (s.releaseAll).lines = ⟨true, true⟩ := rfl
@[simp] theorem State.nextEdge_lines : (s.nextEdge).lines = s.lines := rfl
@[simp] theorem State.skipEdges_lines (n : Nat) : (s.skipEdges n).lines = s.lines := rfl
@[simp] theorem State.offering_lines (w : CmdWord) : (s.offering w).lines = s.lines := rfl

@[simp] theorem State.lines_scl : s.lines.scl = s.scl := rfl
@[simp] theorem State.lines_sda : s.lines.sda = s.sda := rfl
@[simp] theorem State.lines_mk (c d : Level) (es : List Event) (n : Nat) (r : Bool) (ps : List Ports) :
    (State.mk c d es n r ps).lines = ⟨c, d⟩ := rfl
@[simp] theorem State.withLines_lines_self : s.withLines s.lines = s := rfl
theorem State.nextEdge_eq_skipEdges : s.nextEdge = s.skipEdges 1 := by
  simp [State.nextEdge, State.skipEdges]

@[simp] theorem headWait_nil : headWait [] = 0 := rfl
@[simp] theorem headWait_wait (n : Nat) (es : List Event) : headWait (.wait n :: es) = n := rfl
@[simp] theorem headWait_set (l : Line) (v : Level) (es : List Event) : headWait (.set l v :: es) = 0 := rfl

@[simp] theorem State.port_nil (h : s.edges = []) : s.port = Ports.quiet := by simp [State.port, h]
@[simp] theorem State.port_cons {p : Ports} {ps : List Ports} (h : s.edges = p :: ps) : s.port = p := by
  simp [State.port, h]
@[simp] theorem State.offering_port (w : CmdWord) : (s.offering w).port = ⟨false, true, w⟩ := rfl
@[simp] theorem State.load_port (es : List Event) : (s.load es).port = s.port := rfl
@[simp] theorem State.withLines_port (a : Lines) : (s.withLines a).port = s.port := rfl
@[simp] theorem State.passTime_port (t : Nat) : (s.passTime t).port = s.port := rfl

@[simp] theorem State.busy_eq_false : s.busy = false ↔ s.pending = [] := by simp [State.busy]
@[simp] theorem State.busy_eq_true : s.busy = true ↔ s.pending ≠ [] := by simp [State.busy]

end Sys2Proof.Machine
end

