-- ==== Sys2Proof/Laws/Ops.lean ====
section
/-! SUPPORT. What each shared operation, and one step, can do: each said once, so that no proof unfolds them again. -/

namespace Sys2Proof.Machine

/-! ### Lines -/

@[simp] theorem Lines.apply_set (a : Lines) (l : Line) (v : Level) : a.apply (.set l v) = a.set l v := rfl
@[simp] theorem Lines.apply_wait (a : Lines) (n : Nat) : a.apply (.wait n) = a := rfl
@[simp] theorem Lines.run_nil (a : Lines) : a.run [] = a := rfl
@[simp] theorem Lines.run_cons (a : Lines) (e : Event) (es : List Event) : a.run (e :: es) = (a.apply e).run es := rfl
@[simp] theorem Lines.run_append (a : Lines) (es fs : List Event) : a.run (es ++ fs) = (a.run es).run fs :=
  List.foldl_append
@[simp] theorem Lines.set_scl (a : Lines) (v : Level) : a.set .scl v = ⟨v, a.sda⟩ := rfl
@[simp] theorem Lines.set_sda (a : Lines) (v : Level) : a.set .sda v = ⟨a.scl, v⟩ := rfl

/-! ### Performing an event -/

theorem State.perform_idle {s : State} (h : s.pending = []) : s.perform = s := by simp [State.perform, h]

theorem State.perform_set {s : State} {l : Line} {v : Level} {rest : List Event} (h : s.pending = .set l v :: rest) :
    s.perform = (s.withLines (s.lines.set l v)).load rest := by simp [State.perform, h]

theorem State.perform_wait_ends {s : State} {n : Nat} {rest : List Event} (h : s.pending = .wait n :: rest)
    (h0 : s.waitLeft = 0) : s.perform = s.load rest := by simp [State.perform, h, h0]

theorem State.perform_wait_passes {s : State} {n : Nat} {rest : List Event} (h : s.pending = .wait n :: rest)
    (h0 : s.waitLeft ≠ 0) : s.perform = s.passTime 1 := by simp [State.perform, h, h0]

/-- What performing can do: nothing when idle; perform a `Set`; end a wait; let a microsecond of a wait pass. -/
theorem State.perform_cases (s : State) :
    (s.pending = [] ∧ s.perform = s) ∨
    (∃ l v rest, s.pending = .set l v :: rest ∧ s.perform = (s.withLines (s.lines.set l v)).load rest) ∨
    (∃ n rest, s.pending = .wait n :: rest ∧ s.waitLeft = 0 ∧ s.perform = s.load rest) ∨
    (∃ n rest, s.pending = .wait n :: rest ∧ s.waitLeft ≠ 0 ∧ s.perform = s.passTime 1) := by
  rcases h : s.pending with _ | ⟨e, rest⟩
  · exact .inl ⟨rfl, State.perform_idle h⟩
  · cases e with
    | set l v => exact .inr (.inl ⟨l, v, rest, rfl, State.perform_set h⟩)
    | wait n =>
      by_cases h0 : s.waitLeft = 0
      · exact .inr (.inr (.inl ⟨n, rest, rfl, h0, State.perform_wait_ends h h0⟩))
      · exact .inr (.inr (.inr ⟨n, rest, rfl, h0, State.perform_wait_passes h h0⟩))

/-- Performing leaves the mark and the port levels. -/
@[simp] theorem State.perform_refused (s : State) : s.perform.refused = s.refused := by
  rcases s.perform_cases with ⟨_, h⟩ | ⟨_, _, _, _, h⟩ | ⟨_, _, _, _, h⟩ | ⟨_, _, _, _, h⟩ <;> simp [h]

@[simp] theorem State.perform_edges (s : State) : s.perform.edges = s.edges := by
  rcases s.perform_cases with ⟨_, h⟩ | ⟨_, _, _, _, h⟩ | ⟨_, _, _, _, h⟩ | ⟨_, _, _, _, h⟩ <;> simp [h]

/-! ### Acceptance -/

/-- Every meaning is one acceptance: it answers a next state and changes `pending` and `wait_left` alone. -/
theorem exec_eq_load (i : Instr) (s : State) : exec i s = .next (s.load (expand i)) := by
  cases i <;> rfl

theorem acceptWord_ok {w : CmdWord} {i : Instr} (h : decode w = .ok i) (s : State) : acceptWord w s = exec i s := by
  simp [acceptWord, h]

theorem acceptWord_error {w : CmdWord} {r : Reserved} (h : decode w = .error r) (s : State) :
    acceptWord w s = .next s.refuse := by simp [acceptWord, h]

/-! ### One step -/

theorem step_refused {s : State} (h : s.refused = true) : step s = .refused .reservedCommand := by
  simp [step, stepAt, h]

theorem step_reset {s : State} (h : s.refused = false) (hr : s.port.rst = true) : step s = .next s.nextEdge.releaseAll := by
  simp [step, stepAt, h, hr]

theorem step_busy {s : State} (h : s.refused = false) (hr : s.port.rst = false) (hb : s.pending ≠ []) :
    step s = .next s.nextEdge.perform := by
  simp [step, stepAt, h, hr, hb, State.busy]

theorem step_accepts {s : State} {i : Instr} (h : s.accepting i) : step s = exec i s.nextEdge := by
  obtain ⟨h, hp, hr, hv, hd⟩ := h
  simp [step, stepAt, h, hr, hp, hv, State.busy, acceptWord_ok hd]

theorem step_reserved {s : State} {r : Reserved} (h : s.refused = false) (hp : s.pending = []) (hr : s.port.rst = false)
    (hv : s.port.cmdValid = true) (hd : decode s.port.cmdWord = .error r) : step s = .next s.nextEdge.refuse := by
  simp [step, stepAt, h, hr, hp, hv, State.busy, acceptWord_error hd]

theorem step_idle {s : State} (h : s.refused = false) (hp : s.pending = []) (hr : s.port.rst = false)
    (hv : s.port.cmdValid = false) : step s = .next s.nextEdge := by
  simp [step, stepAt, h, hr, hp, hv, State.busy]

/-- What a step that answers a next state did: reset, perform, accept a command, mark a reserved word, or stay idle. -/
theorem step_cases {s t : State} (h : step s = .next t) :
    s.refused = false ∧
    ((s.port.rst = true ∧ t = s.nextEdge.releaseAll) ∨
     (s.port.rst = false ∧ s.pending ≠ [] ∧ t = s.nextEdge.perform) ∨
     (∃ i, s.accepting i ∧ t = s.nextEdge.load (expand i)) ∨
     (s.port.rst = false ∧ s.pending = [] ∧ s.port.cmdValid = true ∧ (∃ r, decode s.port.cmdWord = .error r) ∧
        t = s.nextEdge.refuse) ∨
     (s.port.rst = false ∧ s.pending = [] ∧ s.port.cmdValid = false ∧ t = s.nextEdge)) := by
  cases hf : s.refused with
  | true => simp [step_refused hf] at h
  | false =>
    refine ⟨rfl, ?_⟩
    cases hr : s.port.rst with
    | true => rw [step_reset hf hr] at h; cases h; exact .inl ⟨rfl, rfl⟩
    | false =>
      by_cases hp : s.pending = []
      · cases hv : s.port.cmdValid with
        | false => rw [step_idle hf hp hr hv] at h; cases h; exact .inr (.inr (.inr (.inr ⟨rfl, hp, rfl, rfl⟩)))
        | true =>
          cases hd : decode s.port.cmdWord with
          | ok i =>
            have ha : s.accepting i := ⟨hf, hp, hr, hv, hd⟩
            rw [step_accepts ha, exec_eq_load] at h
            cases h
            exact .inr (.inr (.inl ⟨i, ha, rfl⟩))
          | error r =>
            rw [step_reserved hf hp hr hv hd] at h
            cases h
            exact .inr (.inr (.inr (.inl ⟨rfl, hp, rfl, ⟨r, rfl⟩, rfl⟩)))
      · rw [step_busy hf hr hp] at h
        cases h
        exact .inr (.inl ⟨rfl, hp, rfl⟩)

/-! ### Runs -/

@[simp] theorem runFor_zero (s : State) : runFor 0 s = .next s := rfl

theorem core_run_succ (M : Host.Core) {s t : M.State} (h : M.step s = .next t) (n : Nat) :
    M.run (n + 1) s = M.run n t := by
  rw [Host.Core.run, h]

theorem runFor_succ {s t : State} (h : step s = .next t) (n : Nat) : runFor (n + 1) s = runFor n t :=
  core_run_succ Sys2Proof.core h n

theorem elapsed_succ {s t : State} (h : step s = .next t) (T : Timing) (k n : Nat) :
    elapsed T k (n + 1) s = stepTime T k s + elapsed T (k + 1) n t := by simp [elapsed, h]

theorem eventTrace_succ {s t : State} (h : step s = .next t) (T : Timing) (k now n : Nat) :
    eventTrace T k now (n + 1) s =
      (startedEvents T k s).map (TimedEvent.mk now) ++ eventTrace T (k + 1) (now + stepTime T k s) n t := by
  simp [eventTrace, h]

end Sys2Proof.Machine
end

