-- ==== Sys2Proof/Laws/Observe.lean ====
section
/-! SUPPORT. The observation functions on a sequence of events: how each of them goes over an append, and the counts. -/

namespace Sys2Proof.Machine

@[simp] theorem seen_nil (a : Lines) : seen a [] = [] := rfl
@[simp] theorem seen_cons (a : Lines) (e : Event) (es : List Event) :
    seen a (e :: es) = seenAt a (a.apply e) ++ seen (a.apply e) es := rfl

@[simp] theorem seen_append (a : Lines) (es fs : List Event) : seen a (es ++ fs) = seen a es ++ seen (a.run es) fs := by
  induction es generalizing a with
  | nil => rfl
  | cons e es ih => simp [ih]

@[simp] theorem samplesOf_append (xs ys : List Seen) : samplesOf (xs ++ ys) = samplesOf xs ++ samplesOf ys := by
  induction xs with
  | nil => rfl
  | cons x xs ih => cases x <;> simp [samplesOf, ih]

@[simp] theorem setCount_append (es fs : List Event) : setCount (es ++ fs) = setCount es + setCount fs := by
  simp [setCount]

@[simp] theorem waitCount_append (es fs : List Event) : waitCount (es ++ fs) = waitCount es + waitCount fs := by
  simp [waitCount]

@[simp] theorem leastMicros_append (es fs : List Event) : leastMicros (es ++ fs) = leastMicros es + leastMicros fs := by
  simp [leastMicros]

@[simp] theorem eventSteps_nil : eventSteps [] = 0 := rfl
@[simp] theorem eventSteps_cons (e : Event) (es : List Event) : eventSteps (e :: es) = e.steps + eventSteps es := by
  simp [eventSteps]

@[simp] theorem eventSteps_append (es fs : List Event) : eventSteps (es ++ fs) = eventSteps es + eventSteps fs := by
  simp [eventSteps]

theorem schedule_append (T : Timing) (k now : Nat) (es fs : List Event) :
    schedule T k now (es ++ fs) = schedule T k now es ++ schedule T (k + eventSteps es) (now + duration T k es) fs := by
  induction es generalizing k now with
  | nil => simp [schedule, duration]
  | cons e es ih => simp [schedule, duration, ih, Nat.add_assoc]

theorem duration_append (T : Timing) (k : Nat) (es fs : List Event) :
    duration T k (es ++ fs) = duration T k es + duration T (k + eventSteps es) fs := by
  induction es generalizing k with
  | nil => simp [duration]
  | cons e es ih => simp [duration, ih, Nat.add_assoc]

/-- `waitSlack` keeps the law of R80. -/
theorem waitSlack_le {T : Timing} {m : Nat} (h : T.delaySlack = some m) (k : Nat) : waitSlack T k ≤ m := by
  simp [waitSlack, h]

/-! ### The time of one step -/

@[simp] theorem unitsPerMicro_pos (T : Timing) : 0 < unitsPerMicro T := Nat.succ_pos _

theorem fullTime_set {T : Timing} {s : State} {l : Line} {v : Level} {rest : List Event} (hr : s.port.rst = false)
    (h : s.pending = .set l v :: rest) (k : Nat) : fullTime T k s = T.tEdge := by simp [fullTime, hr, h]

theorem fullTime_wait_passes {T : Timing} {s : State} {n : Nat} {rest : List Event} (hr : s.port.rst = false)
    (h : s.pending = .wait n :: rest) (h0 : s.waitLeft ≠ 0) (k : Nat) : fullTime T k s = unitsPerMicro T := by
  simp [fullTime, hr, h, h0]

theorem fullTime_wait_ends {T : Timing} {s : State} {n : Nat} {rest : List Event} (hr : s.port.rst = false)
    (h : s.pending = .wait n :: rest) (h0 : s.waitLeft = 0) (k : Nat) : fullTime T k s = waitSlack T k := by
  simp [fullTime, hr, h, h0]

theorem fullTime_idle {T : Timing} {s : State} (h : s.pending = []) (k : Nat) : fullTime T k s = T.idleDraw k := by
  simp [fullTime, h]

/-- A step that no reset follows takes its full time. -/
theorem stepTime_of_no_reset {s : State} (h : s.nextEdge.port.rst = false) (T : Timing) (k : Nat) :
    stepTime T k s = fullTime T k s := by simp [stepTime, h]

/-- A step that a reset follows lasts any part of its full time. -/
theorem stepTime_of_reset {s : State} (h : s.nextEdge.port.rst = true) (T : Timing) (k : Nat) :
    stepTime T k s = min (T.resetCut k) (fullTime T k s) := by simp [stepTime, h]

theorem stepTime_le_fullTime (T : Timing) (k : Nat) (s : State) : stepTime T k s ≤ fullTime T k s := by
  unfold stepTime; split
  · exact Nat.min_le_right _ _
  · exact Nat.le_refl _

/-! ### Ticks (R82) -/

@[simp] theorem admitTick_unitsPerMicro (f : Nat) (T : Timing) : unitsPerMicro (admitTick f T) = unitsPerMicro T := rfl
@[simp] theorem admitTick_tEdge (f : Nat) (T : Timing) : (admitTick f T).tEdge = T.tEdge := rfl
@[simp] theorem admitTick_slackDraw (f : Nat) (T : Timing) : (admitTick f T).slackDraw = T.slackDraw := rfl
@[simp] theorem admitTick_delaySlack (f : Nat) (T : Timing) :
    (admitTick f T).delaySlack = T.delaySlack.map (max (tickPeriod f T)) := rfl

/-- A tick period in units is no shorter than a tick: a million microseconds are at most `f` of them. -/
theorem tickPeriod_covers {f : Nat} (hf : 0 < f) (T : Timing) : 1000000 * unitsPerMicro T ≤ tickPeriod f T * f := by
  have h := Nat.div_add_mod (1000000 * unitsPerMicro T + (f - 1)) f
  have hm := Nat.mod_lt (1000000 * unitsPerMicro T + (f - 1)) hf
  rw [tickPeriod, Nat.mul_comm _ f]
  omega

/-- A bounded `DELAY_SLACK` under R82's bound admits every extra duration up to a tick period. -/
theorem le_of_admitTick {f m x : Nat} {T : Timing} (hf : 0 < f) (hm : (admitTick f T).delaySlack = some m)
    (hx : x * f ≤ 1000000 * unitsPerMicro T) : x ≤ m := by
  obtain ⟨d, _, rfl⟩ := Option.map_eq_some_iff.mp hm
  exact Nat.le_trans (Nat.le_of_mul_le_mul_right (Nat.le_trans hx (tickPeriod_covers hf T)) hf) (Nat.le_max_left _ _)

end Sys2Proof.Machine
end

