-- ==== Sys2Proof/Laws/PerInstr.lean ====
section
/-! SUPPORT. Statements about every command as syntax, one lemma for each constructor. -/

namespace Sys2Proof.Laws

/-- The `match` of the command's row of opcode_table.json (R68). -/
def TableRow.matchWord : Instr → CmdWord
  | .start => 0x10000000
  | .stop => 0x20000000
  | .wrb _ => 0x30000000
  | .cmd _ => 0x40000000
  | .dat _ => 0x50000000
  | .wait _ => 0x60000000

/-- The `mask` of the command's row of opcode_table.json (R68). -/
def TableRow.mask : Instr → CmdWord
  | .start => 0xFFFFFFFF
  | .stop => 0xFFFFFFFF
  | .wrb _ => 0xFFFFFF00
  | .cmd _ => 0xFFFFFF00
  | .dat _ => 0xFFFFFF00
  | .wait _ => 0xFF000000

/-- The command's word has the fixed bits of its row of the opcode table (R68). -/
def TableRow.Statement (i : Instr) : Prop := encode i &&& TableRow.mask i = TableRow.matchWord i

theorem TableRow.start : TableRow.Statement .start := by unfold TableRow.Statement; decide
theorem TableRow.stop : TableRow.Statement .stop := by unfold TableRow.Statement; decide

/-- The mask of a byte command keeps `OP` and sees the must-be-zero bits as 0. -/
theorem TableRow.byteFixed (op : BitVec 4) (b : Byte) :
    packWord op (b.setWidth 24) &&& 0xFFFFFF00 = (op ++ 0x0#28 : BitVec 32) := by
  apply BitVec.eq_of_getLsbD_eq
  intro i hi
  simp only [packWord, BitVec.getLsbD_and, BitVec.getLsbD_append, BitVec.getLsbD_zero]
  interval_cases i <;> simp

/-- The mask of `WAIT` keeps `OP` and sees `Z` as 0. -/
theorem TableRow.countFixed (op : BitVec 4) (a : BitVec 24) :
    packWord op a &&& 0xFF000000 = (op ++ 0x0#28 : BitVec 32) := by
  apply BitVec.eq_of_getLsbD_eq
  intro i hi
  simp only [packWord, BitVec.getLsbD_and, BitVec.getLsbD_append, BitVec.getLsbD_zero]
  interval_cases i <;> simp

theorem TableRow.wrb (b : Byte) : TableRow.Statement (.wrb b) := TableRow.byteFixed 0x3 b
theorem TableRow.cmd (v : Byte) : TableRow.Statement (.cmd v) := TableRow.byteFixed 0x4 v
theorem TableRow.dat (v : Byte) : TableRow.Statement (.dat v) := TableRow.byteFixed 0x5 v
theorem TableRow.wait (n : Nat) : TableRow.Statement (.wait n) := TableRow.countFixed 0x6 (BitVec.ofNat 24 n)

end Sys2Proof.Laws
end

