-- ==== Sys2Proof/Laws/Run.lean ====
section
/-! SUPPORT. Runs of several steps: how a run, its time and its trace split at a step, and what having no reset ahead gives. -/

namespace Sys2Proof.Machine

/-! ### Running on from a state -/

theorem core_run_refused (M : Host.Core) {s : M.State} {r : M.Refusal} (h : M.step s = .refused r) (n : Nat) :
    M.run (n + 1) s = .refused r := by
  rw [Host.Core.run, h]

theorem runFor_refused {s : State} {r : Refusal} (h : step s = .refused r) (n : Nat) : runFor (n + 1) s = .refused r :=
  core_run_refused Sys2Proof.core h n

/-- The first step of a run that answers a next state answers one. -/
theorem step_next_of_runFor {s t : State} {n : Nat} (h : runFor (n + 1) s = .next t) : ∃ u, step s = .next u := by
  cases hs : step s with
  | next u => exact ⟨u, rfl⟩
  | fault f => cases f
  | refused r => rw [runFor_refused hs] at h; cases h

theorem runFor_add {s t : State} {a : Nat} (h : runFor a s = .next t) (b : Nat) : runFor (a + b) s = runFor b t := by
  induction a generalizing s with
  | zero => cases h; simp
  | succ a ih =>
    obtain ⟨u, hs⟩ := step_next_of_runFor h
    rw [runFor_succ hs] at h
    rw [Nat.add_right_comm, runFor_succ hs, ih h]

theorem elapsed_add {s t : State} {a : Nat} (h : runFor a s = .next t) (T : Timing) (k b : Nat) :
    elapsed T k (a + b) s = elapsed T k a s + elapsed T (k + a) b t := by
  induction a generalizing s k with
  | zero => cases h; simp [elapsed]
  | succ a ih =>
    obtain ⟨u, hs⟩ := step_next_of_runFor h
    rw [runFor_succ hs] at h
    rw [Nat.add_right_comm, elapsed_succ hs, elapsed_succ hs, ih h]
    simp [Nat.add_assoc, Nat.add_comm 1 a]

theorem eventTrace_add {s t : State} {a : Nat} (h : runFor a s = .next t) (T : Timing) (k now b : Nat) :
    eventTrace T k now (a + b) s = eventTrace T k now a s ++ eventTrace T (k + a) (now + elapsed T k a s) b t := by
  induction a generalizing s k now with
  | zero => cases h; simp [elapsed, eventTrace]
  | succ a ih =>
    obtain ⟨u, hs⟩ := step_next_of_runFor h
    rw [runFor_succ hs] at h
    rw [Nat.add_right_comm, elapsed_succ hs, eventTrace_succ hs, eventTrace_succ hs, ih h]
    simp [Nat.add_assoc, Nat.add_comm 1 a]

/-! ### No reset ahead -/

theorem State.noReset.port {s : State} {n : Nat} (h : s.noReset (n + 1)) : s.port.rst = false := by
  unfold State.port
  rcases he : s.edges with _ | ⟨p, ps⟩
  · rfl
  · exact h p (by simp [he])

theorem State.noReset.nextEdge {s : State} {n : Nat} (h : s.noReset (n + 1)) : s.nextEdge.noReset n := by
  intro p hp
  rcases he : s.edges with _ | ⟨q, ps⟩
  · simp [he] at hp
  · exact h p (by simp [he] at hp ⊢; exact .inr hp)

/-- With no reset at the next two steps, none cuts this one. -/
theorem State.noReset.next_port {s : State} {n : Nat} (h : s.noReset (n + 2)) : s.nextEdge.port.rst = false :=
  h.nextEdge.port

theorem State.noReset.mono {s : State} {m n : Nat} (h : s.noReset n) (hmn : m ≤ n) : s.noReset m :=
  fun p hp => h p (List.take_subset_take_left _ hmn hp)

theorem State.noReset.skipEdges {s : State} {m n : Nat} (h : s.noReset (m + n)) : (s.skipEdges m).noReset n := by
  intro p hp
  refine h p ?_
  rw [List.take_add]
  exact List.mem_append_right _ hp

end Sys2Proof.Machine
end

