-- ==== Sys2Proof/Tests/Slice0.lean ====
section
/-! SUPPORT. The model's own tests, with expected values from spec/ (95_test_vectors.md and the rules' examples), and for each
statement with hypotheses a state and operands that meet them. -/

namespace Sys2Proof.Machine

/-! ### Well-formedness: the one check, at its edge (R62) -/

theorem test_wait_count_fits : (Instr.wait 16777215).wellFormed = true := by decide
theorem test_wait_count_too_large : (Instr.wait 16777216).wellFormed = false := by decide

/-! ### Decoding: words written out from 30_encoding.md R68, bit by bit, and L2.1 -/

theorem test_decode_start : decode 0b00010000000000000000000000000000 = .ok .start := by rfl
theorem test_decode_stop : decode 0b00100000000000000000000000000000 = .ok .stop := by rfl
theorem test_decode_wrb : decode 0b00110000000000000000000001001110 = .ok (.wrb 0x4E) := by rfl
theorem test_decode_cmd : decode 0b01000000000000000000000000000001 = .ok (.cmd 0x01) := by rfl
theorem test_decode_dat : decode 0b01010000000000000000000001000001 = .ok (.dat 0x41) := by rfl
theorem test_decode_wait : decode 0b01100000000000000000011111010000 = .ok (.wait 2000) := by rfl
theorem test_decode_zero_word : decode 0x00000000 = .error .opcode := by rfl
theorem test_decode_op_seven : decode 0x70000000 = .error .opcode := by rfl
theorem test_decode_start_arg : decode 0x10000001 = .error .argField := by rfl
theorem test_decode_wrb_arg : decode 0x30000100 = .error .argField := by rfl
theorem test_decode_z : decode 0x4F000001 = .error .zField := by rfl
theorem test_encode_words : [Instr.start, .stop, .wrb 0x4E, .cmd 0x28, .dat 0x41, .wait 50].map encode =
    [0x10000000, 0x20000000, 0x3000004E, 0x40000028, 0x50000041, 0x60000032] := by decide
theorem test_decodeTableWord : decodeTableWord 32 0x600007D0 = some (.wait 2000) := by rfl

/-! ### One step on a small state -/

/-- A state after one step, or the state itself where the step answers none. -/
def testNext (s : State) : State :=
  match step s with
  | .next t => t
  | _ => s

/-- A busy state with the given lines and events. -/
def testBusy (a : Lines) (es : List Event) : State := (State.reset.withLines a).load es

theorem test_fetch_start : (testNext (State.reset.withFetchWord 32 0x10000000)).pending.length = 7 := by decide
theorem test_fetch_wait : (testNext (State.reset.withFetchWord 32 0x60000032)).waitLeft = 50 := by decide
theorem test_fetch_wait_zero : (testNext (State.reset.withFetchWord 32 0x60000000)).busy = false := by decide
theorem test_fetch_stop_first : (testNext (State.reset.withFetchWord 32 0x20000000)).pending.head? =
    some (.set .sda false) := by decide
theorem test_fetch_wrb_first : (testNext (State.reset.withFetchWord 32 0x30000080)).pending.head? =
    some (.set .sda true) := by decide
theorem test_reserved_marks : (testNext (State.reset.withFetchWord 32 0)).refused = true := by decide
theorem test_set_sda : (testNext (testBusy ⟨true, true⟩ [.set .sda false, .wait 2])).lines = ⟨true, false⟩ := by decide
theorem test_set_enters_wait : (testNext (testBusy ⟨true, true⟩ [.set .sda false, .wait 2])).waitLeft = 2 := by decide
theorem test_wait_passes : (testNext (testBusy ⟨false, true⟩ [.wait 2])).waitLeft = 1 := by decide
theorem test_wait_ends : (testNext { testBusy ⟨false, true⟩ [.wait 2] with waitLeft := 0 }).pending = [] := by decide
theorem test_reset_wins : (testNext { testBusy ⟨false, false⟩ [.wait 2] with edges := [⟨true, true, 0x10000000⟩] }) =
    State.reset := by decide

/-! ### The encoder's bytes (42_nibble_encoder.md R113, R114, L2.5) -/

theorem test_cmd_28 : encoderBytes false 0x28 = [0x28, 0x2C, 0x28, 0x88, 0x8C, 0x88] := by decide
theorem test_dat_41 : encoderBytes true 0x41 = [0x49, 0x4D, 0x49, 0x19, 0x1D, 0x19] := by decide
theorem test_cmd_ff : encoderBytes false 0xFF = [0xF8, 0xFC, 0xF8, 0xF8, 0xFC, 0xF8] := by decide

/-! ### The waveform, in canonical timing (95_test_vectors.md, conventions) -/

/-- `T_EDGE` = 0, no slack, one unit to a microsecond. -/
def canonical : Timing := ⟨0, 0, some 0, fun _ => 0, fun _ => 0, fun _ => 0, fun _ => false⟩

/-- The waveform of a sequence of events from the given lines, as `(t, scl, sda)`. -/
def testWave (a : Lines) (es : List Event) : List (Nat × Nat × Nat) :=
  (waveform a (schedule canonical 0 0 es)).map fun p => (p.time, p.lines.scl.toNat, p.lines.sda.toNat)

/-- L2.3. -/
theorem test_start_wave_idle : testWave ⟨true, true⟩ (expand .start) = [(2, 1, 0), (4, 0, 0)] := by decide
theorem test_start_wave_repeated : testWave ⟨false, false⟩ (expand .start) =
    [(0, 0, 1), (0, 1, 1), (2, 1, 0), (4, 0, 0)] := by decide
theorem test_stop_wave_idle : testWave ⟨true, true⟩ (expand .stop) = [(0, 1, 0), (2, 1, 1)] := by decide
theorem test_stop_wave_low : testWave ⟨false, true⟩ (expand .stop) = [(0, 0, 0), (0, 1, 0), (2, 1, 1)] := by decide

/-- L2.4: the full canonical waveform of `START; WRB 0x4E; STOP` from idle. -/
theorem test_transfer_wave : testWave ⟨true, true⟩ ([Instr.start, .wrb 0x4E, .stop].flatMap expand) =
    [(2, 1, 0), (4, 0, 0), (6, 1, 0), (8, 0, 0), (10, 0, 1), (10, 1, 1), (12, 0, 1), (14, 0, 0), (14, 1, 0), (16, 0, 0),
     (18, 1, 0), (20, 0, 0), (22, 0, 1), (22, 1, 1), (24, 0, 1), (26, 1, 1), (28, 0, 1), (30, 1, 1), (32, 0, 1),
     (34, 0, 0), (34, 1, 0), (36, 0, 0), (38, 1, 0), (40, 0, 0), (42, 1, 0), (44, 1, 1)] := by rfl

/-- L2.4: `WRB 0x25` from (0,0), and from idle where bit 7 is not sampled and makes a start condition (P4). -/
theorem test_wrb_25_samples : samplesOf (seen ⟨false, false⟩ (expand (.wrb 0x25))) =
    [false, false, true, false, false, true, false, true, true] := by decide
theorem test_wrb_25_from_idle : seen ⟨true, true⟩ (expand (.wrb 0x25)) =
    .start :: [false, true, false, false, true, false, true, true].map Seen.sample := by decide
/-- L2.4: 23 changes for `WRB 0x4E` from (0,1); L2.5: 158 for `CMD 0x28` from idle. -/
theorem test_wrb_4e_changes : (testWave ⟨false, true⟩ (expand (.wrb 0x4E))).length = 23 := by decide
theorem test_cmd_28_changes : (testWave ⟨true, true⟩ (expand (.cmd 0x28))).length = 158 := by rfl

/-- L2.2: the tick counts of `WAIT 50`. -/
theorem test_ticks : [1000000, 3000000, 32768].map (fun f => minTicks f 50) = [50, 150, 2] := by decide

/-! ### The host software (L1.2 to L1.5, L2.7) and the assembler (R66, R68) -/

theorem test_set_cursor : [setCursor 0 39, setCursor 1 9, setCursor 1 64, setCursor 0 128] =
    [.cmd 0xA7, .cmd 0xC9, .cmd 0x00, .cmd 0x00] := by decide
theorem test_format_time : formatTime 12 59 59 = [0x31, 0x32, 0x3A, 0x35, 0x39, 0x3A, 0x35, 0x39] := by decide
theorem test_format_time_truncates : formatTime 123 45 6 = [0x31, 0x32, 0x33, 0x3A, 0x34, 0x35, 0x3A, 0x30] := by decide
theorem test_advance_carries : HostState.advance none ⟨.running, 0, 59, 59, true, true⟩ = ⟨.running, 1, 0, 0, true, true⟩ := by
  decide
theorem test_advance_ceiling : (HostState.advance (some 24) ⟨.running, 23, 59, 59, true, true⟩).h = 0 := by decide
/-- L1.5: high, low, low, high, low gives two toggles. -/
theorem test_two_toggles : ((hostRun none HostState.initial
    [(true, true), (false, true), (false, true), (true, true), (false, true)]).1).run = .paused := by decide
/-- L1.6: a reset edge while running shows the paused label and keeps running. -/
theorem test_reset_keeps_running : (resetAction ⟨.running, 1, 2, 3, true, true⟩).1.run = .running := by decide
theorem test_assemble_wrb : assembleLine ['W', 'R', 'B', ' ', '0', 'x', '4', 'E', ' ', ';', ' ', 'a'] =
    some [.wrb 0x4E] := by decide
theorem test_assemble_dat : assembleLine ['D', 'A', 'T', ' ', '\'', 'A', '\''] = some [.dat 0x41] := by decide
theorem test_digits : [digitIn 10 '9', digitIn 10 'A', digitIn 16 'F', digitIn 16 'e', digitIn 16 'G'] =
    [some 9, none, some 15, some 14, none] := by decide
theorem test_assemble_too_large : assembleLine ['C', 'M', 'D', ' ', '2', '5', '6'] = none := by decide
theorem test_assemble_setcur : assembleLine ['S', 'E', 'T', 'C', 'U', 'R', ' ', '1', ',', ' ', '9'] = some [.cmd 0xC9] := by
  decide

/-! ### Witnesses: states and operands that meet the hypotheses of the statements -/

/-- A refused-free state under reset, with a command offered. -/
def witnessReset : State := { testBusy ⟨false, false⟩ [.wait 2] with edges := [⟨true, true, 0x10000000⟩] }

theorem witness_ResetReleasesLinesAndAbandons : witnessReset.refused = false ∧ witnessReset.port.rst = true := by decide
theorem witness_ResetReleasesLinesAndAbandons_lines (a : Lines) :
    ({ witnessReset with scl := a.scl, sda := a.sda }).refused = false ∧
    ({ witnessReset with scl := a.scl, sda := a.sda }).port.rst = true ∧
    ({ witnessReset with scl := a.scl, sda := a.sda }).lines = a := ⟨rfl, rfl, rfl⟩
theorem witness_ResetReleasesLinesAndAbandons_scl_first :
    startedEvents canonical 0 witnessReset = [.set .scl true, .set .sda true] := by decide
theorem witness_ResetReleasesLinesAndAbandons_sda_first :
    startedEvents { canonical with resetSdaFirst := fun _ => true } 0 witnessReset = [.set .sda true, .set .scl true] := by
  decide
theorem witness_DecodeOfEncode : (Instr.wait 16777215).WellFormed ∧ (Instr.wrb 0xFF).WellFormed := by decide
theorem witness_EncodeOfDecode : decode 0x60FFFFFF = .ok (.wait 16777215) := by rfl

/-- A state in which the block takes `CMD 0x28` at the next step. -/
def witnessOffer : State := State.reset.offering 0x40000028

theorem witness_accepting : witnessOffer.accepting (.cmd 0x28) := ⟨rfl, rfl, rfl, rfl, rfl⟩
theorem witness_StepRunsDecodedCommand : witnessOffer.accepting (.cmd 0x28) ∧
    decodeTableWord 32 0x40000028 = some (.cmd 0x28) := ⟨witness_accepting, rfl⟩
theorem witness_CommandAcceptedOnlyWhenReady_ready : witnessOffer.refused = false ∧ witnessOffer.cmdReady = true ∧
    witnessOffer.port.cmdValid = true ∧ decode witnessOffer.port.cmdWord = .ok (.cmd 0x28) := ⟨rfl, rfl, rfl, rfl⟩
theorem witness_CommandAcceptedOnlyWhenReady_none : State.reset.refused = false ∧ State.reset.cmdReady = true ∧
    State.reset.port.cmdValid = false := by decide
theorem witness_CommandAcceptedOnlyWhenReady_busy : witnessReset.refused = false ∧ witnessReset.pending ≠ [] := by decide
theorem witness_ReservedWordMarksAndStops : (State.reset.offering 0).refused = false ∧ (State.reset.offering 0).pending = [] ∧
    (State.reset.offering 0).port.rst = false ∧ (State.reset.offering 0).port.cmdValid = true ∧
    decode (State.reset.offering 0).port.cmdWord = .error .opcode := ⟨rfl, rfl, rfl, rfl, rfl⟩
theorem witness_ReservedWordMarksAndStops_marked : State.reset.refuse.refused = true := by rfl
theorem witness_LinesHoldUnlessSetPerformed_idle : State.reset.refused = false ∧ State.reset.pending = [] ∧
    State.reset.port.rst = false ∧ State.reset.port.cmdValid = false := by decide

/-- A state whose next event changes the data line. -/
def witnessSet (l : Line) : State := testBusy ⟨true, true⟩ [.set l false, .wait 2]

theorem witness_LinesHoldUnlessSetPerformed_set : step (witnessSet .sda) = .next (witnessSet .sda).perform ∧
    (witnessSet .sda).port.rst = false ∧ (witnessSet .sda).perform.lines ≠ (witnessSet .sda).lines :=
  ⟨rfl, rfl, by decide⟩
theorem witness_SetEventWritesItsLine (l : Line) : (witnessSet l).refused = false ∧ (witnessSet l).port.rst = false ∧
    (witnessSet l).pending = .set l false :: [.wait 2] ∧ (witnessSet l).nextEdge.port.rst = false := ⟨rfl, rfl, rfl, rfl⟩
theorem witness_SetEventWritesItsLine_invisible : (testBusy ⟨true, true⟩ [.set .sda true]).lines.set .sda true =
    (testBusy ⟨true, true⟩ [.set .sda true]).lines := by rfl

/-- A state that begins a wait of `n`. -/
def witnessWait (n : Nat) : State := testBusy ⟨false, true⟩ [.wait n]

theorem witness_OnlyResetCutsAWait_passes : step (witnessWait 3) = .next ((witnessWait 3).passTime 1) ∧
    (witnessWait 3).pending = [.wait 3] ∧ (witnessWait 3).port.rst = false ∧ (witnessWait 3).waitLeft ≠ 0 :=
  ⟨rfl, rfl, rfl, by decide⟩
theorem witness_OnlyResetCutsAWait_reset : step witnessReset = .next State.reset ∧ witnessReset.pending = [.wait 2] ∧
    State.reset.pending ≠ witnessReset.pending := ⟨rfl, rfl, by decide⟩
theorem witness_OnlyResetCutsAWait_ends : step (witnessWait 0) = .next ((witnessWait 0).load []) ∧
    ((witnessWait 0).load []).pending ≠ (witnessWait 0).pending := ⟨rfl, by decide⟩
theorem witness_WaitLastsAtLeastItsRequest (n : Nat) : (witnessWait n).refused = false ∧
    (witnessWait n).pending = .wait n :: [] ∧ (witnessWait n).waitLeft = n ∧ (witnessWait n).noReset (n + 1) :=
  ⟨rfl, rfl, rfl, by intro p hp; simp [witnessWait, testBusy, State.reset] at hp⟩
theorem witness_WaitLastsAtLeastItsRequest_slack : canonical.delaySlack = some 0 ∧
    ∀ m, canonical.delaySlack = some m → 0 ≤ m := ⟨rfl, fun m _ => Nat.zero_le m⟩
theorem witness_BackToBackWaitsAdd : (testBusy ⟨true, true⟩ [.wait 3, .wait 4]).refused = false ∧
    (testBusy ⟨true, true⟩ [.wait 3, .wait 4]).pending = [.wait 3, .wait 4] ∧
    (testBusy ⟨true, true⟩ [.wait 3, .wait 4]).waitLeft = 3 ∧
    (testBusy ⟨true, true⟩ [.wait 3, .wait 4]).noReset (3 + 1 + (4 + 1)) := by decide
theorem witness_WaitAccepted : 0 < 1 ∧ 0 < 16777215 := by decide
theorem witness_AcceptanceFrame : exec .start State.reset = .next (State.reset.load (expand .start)) := by rfl

/-- The witness offers `CMD 0x28`, and no reset is ahead of it. -/
theorem witness_CommandRunsToCompletion : witnessOffer.accepting (.cmd 0x28) ∧
    witnessOffer.noReset (1 + eventSteps (expand (.cmd 0x28))) :=
  ⟨witness_accepting, by
    intro p hp
    have hp := List.mem_of_mem_take hp
    simp [witnessOffer, State.reset] at hp
    simp [hp]⟩

/-- A host that offers one transfer from reset. -/
def witnessHost : State := { State.reset with edges := offerScript [.start, .wrb 0x4E, .stop] }

theorem witness_OfferedCommandsRunInOrder : (∀ i ∈ [Instr.start, .wrb 0x4E, .stop], i.WellFormed) ∧
    witnessHost.refused = false ∧ witnessHost.pending = [] ∧ witnessHost.edges = offerScript [.start, .wrb 0x4E, .stop] :=
  ⟨by decide, rfl, rfl, rfl⟩
theorem witness_RawCommandsEqualEncoderCommand : State.reset.refused = false ∧ State.reset.pending = [] := by decide
theorem witness_invariant_busy : (witnessWait 3).Inv :=
  ⟨by decide, by decide, by decide, by decide⟩
theorem witness_StepKeepsInvariant : (witnessWait 3).Inv ∧ step (witnessWait 3) = .next ((witnessWait 3).passTime 1) :=
  ⟨witness_invariant_busy, rfl⟩

/-- An idle state the invariant holds of, other than reset: between a `WRB` and the next command. -/
theorem witness_InvariantAtReset : (testBusy ⟨false, true⟩ []).Inv ∧ (testBusy ⟨false, true⟩ []).pending = [] :=
  ⟨⟨by decide, by decide, by decide, by decide⟩, rfl⟩
theorem witness_ByteGoesOutMsbFirst : (∀ j, j < 8 → (fun k : Nat => decide (k < 8)) j = true) ∧
    1 ≤ 1 ∧ 1 ≤ 8 ∧ 8 ≤ 8 := by simp
theorem witness_EncoderCommandIsOneTransaction : Instr.cmd 0x28 = (if false then .dat 0x28 else .cmd 0x28) ∧
    witnessOffer.accepting (.cmd 0x28) ∧ witnessOffer.lines.legalIdle ∧
    witnessOffer.noReset (1 + eventSteps (expand (.cmd 0x28))) :=
  ⟨rfl, witness_accepting, .inl rfl, witness_CommandRunsToCompletion.2⟩

/-- The same on the data path, from SCL low. -/
def witnessOfferData : State := (testBusy ⟨false, true⟩ []).offering 0x50000041

theorem witness_EncoderCommandIsOneTransaction_data : Instr.dat 0x41 = (if true then .dat 0x41 else .cmd 0x41) ∧
    witnessOfferData.accepting (.dat 0x41) ∧ witnessOfferData.lines.legalIdle ∧
    witnessOfferData.noReset (1 + eventSteps (expand (.dat 0x41))) :=
  ⟨rfl, ⟨rfl, rfl, rfl, rfl, rfl⟩, .inr (.inr rfl), by
    intro p hp
    have hp := List.mem_of_mem_take hp
    simp [witnessOfferData, testBusy, State.reset] at hp
    simp [hp]⟩
theorem witness_EncoderCommandCounts : Instr.cmd 0 = .cmd 0 ∨ Instr.cmd 0 = .dat 0 := .inl rfl
theorem witness_LeastCommandDurations : State.reset.refused = false ∧
    exec (.dat 0x41) State.reset = .next (State.reset.load (expand (.dat 0x41))) ∧
    (State.reset.load (expand (.dat 0x41))).noReset (eventSteps (expand (.dat 0x41))) :=
  ⟨rfl, rfl, by intro p hp; simp [State.reset] at hp⟩
theorem witness_ClockLevelsLastAQuantum_schedule : schedule canonical 0 0 (expandWith false .start) =
    [⟨0, .set .sda true⟩] ++ ⟨0, .set .scl true⟩ :: [⟨0, .wait 2⟩, ⟨2, .set .sda false⟩, ⟨2, .wait 2⟩,
      ⟨4, .set .scl false⟩, ⟨4, .wait 2⟩] := by rfl
theorem witness_ClockLevelsLastAQuantum : expandWith false .start =
    [.set .sda true] ++ .set .scl true :: [.wait 2, .set .sda false, .wait 2, .set .scl false, .wait 2] := by rfl
theorem witness_TickCountIsCeiling : 0 < 32768 ∧ 30 * 32768 ≤ 1000000 * unitsPerMicro canonical := by decide
theorem witness_WireIsLowWhenAnyonePulls : (witnessWait 1).scl = false ∧ (witnessWait 1).sda = true ∧
    State.reset.scl = true ∧ (testBusy ⟨true, false⟩ []).sda = false := by decide
theorem witness_SetCursorAddress : 39 < 40 := by decide
theorem witness_TimeAdvanceAddsOneSecond : (⟨.running, 23, 59, 59, true, true⟩ : HostState).m < 60 ∧
    (⟨.running, 23, 59, 59, true, true⟩ : HostState).s < 60 ∧ (⟨.running, 23, 59, 59, true, true⟩ : HostState).h < 24 := by
  decide
theorem witness_IterationTogglesOnStartStopEdgeOnly :
    (hostIteration none true false HostState.initial).1.run = .paused ∧ HostState.initial.lastRst = true ∧
    ¬(HostState.initial.lastSs = true ∧ true = false) ∧ HostState.initial.run = .paused := by decide
theorem witness_HostCommandsAreWellFormed : Instr.cmd 0x20 ∈ bringUpCommands ⟨50000, 100, 899, 3999⟩ := by decide
theorem witness_RenderTimeIsNineCommands : 99 ≤ 99 ∧ 100 ≤ 100 ∧ 100 ≤ 999 ∧ 0 ≤ 99 := by decide
theorem witness_AssemblerNeverTruncates_fits : 255 < 256 ∧ 16777215 < 2 ^ 24 ∧ 'A'.toNat < 128 := by decide
theorem witness_AssemblerNeverTruncates : assembleLine ['S', 'T', 'O', 'P'] = some [.stop] ∧ 256 ≤ 256 ∧
    2 ^ 24 ≤ 16777216 := by decide

/-- A wait of `n` with a reset after its first `j + 1` steps. -/
def witnessCut (n j : Nat) : State :=
  { witnessWait n with edges := List.replicate (j + 1) Ports.quiet ++ [⟨true, false, 0⟩] }

/-- A reset within the second microsecond of a wait of 3, and one in the slack of a wait of 3. -/
theorem witness_ResetLandsAnywhereInAWait : (witnessCut 3 1).refused = false ∧ (witnessCut 3 1).pending = [.wait 3] ∧
    (witnessCut 3 1).waitLeft = 3 ∧ (witnessCut 3 1).noReset (1 + 1) ∧ ((witnessCut 3 1).skipEdges (1 + 1)).port.rst = true ∧
    1 * unitsPerMicro canonical ≤ 2 ∧ 2 ≤ (1 + 1) * unitsPerMicro canonical := by decide
theorem witness_ResetLandsAnywhereInAWait_slack : (witnessCut 3 3).pending = [.wait 3] ∧ (witnessCut 3 3).noReset (3 + 1) ∧
    ((witnessCut 3 3).skipEdges (3 + 1)).port.rst = true ∧ 3 * unitsPerMicro canonical ≤ 3 ∧
    ∀ m, canonical.delaySlack = some m → 3 ≤ 3 * unitsPerMicro canonical + m :=
  ⟨rfl, by decide, by decide, by decide, fun m _ => Nat.le_add_right 3 m⟩
/-- `START` from idle: the start condition and then the clock's fall; from SCL low, the data line's rise and then the clock's. -/
theorem witness_WaveformKeepsTimingBounds_hold : Lines.legalIdle ⟨true, true⟩ ∧
    waveform ⟨true, true⟩ (Claim.pausedSchedule canonical false 0 0 [(5, .start)]) =
      [] ++ ⟨7, true, false⟩ :: ⟨9, false, false⟩ :: [] := by decide
theorem witness_WaveformKeepsTimingBounds_setup : Lines.legalIdle ⟨false, false⟩ ∧
    waveform ⟨false, false⟩ (Claim.pausedSchedule canonical false 0 0 [(0, .start)]) =
      [] ++ ⟨0, false, true⟩ :: ⟨0, true, true⟩ :: [⟨2, true, false⟩, ⟨4, false, false⟩] := by decide

end Sys2Proof.Machine
end

section
/-! SUPPORT. Proofs of the statements about the block's state: reset values, acceptance, and what changes a line
(10_state.md R26, R30, R31). -/

namespace Sys2Proof.Machine

/-! ### What the statements share -/

/-- R25: the block is ready exactly when it is idle and not under reset. -/
theorem State.cmdReady_eq_true (s : State) : s.cmdReady = true ↔ s.pending = [] ∧ s.port.rst = false := by
  simp [State.cmdReady]

/-- Of the four ways to perform, only the `Set` at the head reaches the lines. -/
theorem State.perform_lines_ne {s : State} (h : s.perform.lines ≠ s.lines) :
    ∃ l v rest, s.pending = .set l v :: rest ∧ s.perform.lines = s.lines.set l v := by
  obtain ⟨_, hs⟩ | ⟨l, v, rest, hp, hs⟩ | ⟨_, _, _, _, hs⟩ | ⟨_, _, _, _, hs⟩ := s.perform_cases
  · exact absurd (by rw [hs]) h
  · exact ⟨l, v, rest, hp, by rw [hs]; rfl⟩
  · exact absurd (by rw [hs]; rfl) h
  · exact absurd (by rw [hs]; rfl) h

/-- Without reset, a step that changes a line performs an event: acceptance, the refusal mark and an idle step keep both. -/
theorem step_eq_perform_of_lines_ne {s t : State} (h : step s = .next t) (hr : s.port.rst = false)
    (hne : t.lines ≠ s.lines) : t = s.nextEdge.perform := by
  obtain ⟨_, ⟨hrst, _⟩ | ⟨_, _, ht⟩ | ⟨i, _, ht⟩ | ⟨_, _, _, _, ht⟩ | ⟨_, _, _, ht⟩⟩ := step_cases h
  · rw [hr] at hrst; contradiction
  · exact ht
  · exact absurd (by simp [ht]) hne
  · exact absurd (by simp [ht]) hne
  · exact absurd (by simp [ht]) hne

/-- Acceptance leaves the mark, as `load` does. -/
theorem exec_refused {i : Instr} {s t : State} (h : exec i s = .next t) : t.refused = s.refused := by
  rw [exec_eq_load] at h
  cases h
  rfl

/-! ### The statements -/

/-- Settles O10: the idle step by `step_idle`; a changed line leaves performing as the only case, and there a `Set`. -/
theorem linesHoldUnlessSetPerformed : Obligations.LinesHoldUnlessSetPerformed := by
  refine ⟨fun s hf hp hr hv => step_idle hf hp hr hv, fun s t h hr hne => ?_⟩
  obtain rfl := step_eq_perform_of_lines_ne h hr hne
  exact State.perform_lines_ne (s := s.nextEdge) hne

/-- Settles O1: the values by evaluation; the mark by what each operation leaves. -/
theorem resetStateHoldsSpecValues : Obligations.ResetStateHoldsSpecValues := by
  refine ⟨rfl, rfl, rfl, rfl, rfl, rfl, rfl, rfl, rfl, rfl, rfl, rfl, rfl, fun s => ?_⟩
  exact ⟨s.releaseAll_refused, s.perform_refused, s.refuse_refused, fun _ _ => exec_refused⟩

/-- Settles O8: ready is idle without reset, so each clause is the one case of `step` that its ports and `pending` leave. -/
theorem commandAcceptedOnlyWhenReady : Obligations.CommandAcceptedOnlyWhenReady := by
  refine fun s hf => ⟨fun i hready hv hd => ?accepts, fun hready hv => ?idle, fun hb v w ps => ?busy, fun v w ps => ?reset⟩
  case accepts =>
    obtain ⟨hp, hr⟩ := s.cmdReady_eq_true.mp hready
    exact step_accepts ⟨hf, hp, hr, hv, hd⟩
  case idle =>
    obtain ⟨hp, hr⟩ := s.cmdReady_eq_true.mp hready
    exact step_idle hf hp hr hv
  case busy => exact step_busy (s := { s with edges := ⟨false, v, w⟩ :: ps }) hf rfl hb
  case reset => exact step_reset (s := { s with edges := ⟨true, v, w⟩ :: ps }) hf rfl

end Sys2Proof.Machine
end

section
/-! SUPPORT. Proofs of the statements about what a byte looks like on the lines (20_memory.md R43; 41_bus_controller.md R93,
R97, R101): what each cell of a `WRB` shows a receiver from SCL low, and where it leaves the lines. -/

namespace Sys2Proof.Machine

/-! ### The cells of a byte, from SCL low -/

/-- One clock is one rise, at the level SDA has. -/
@[simp] theorem seen_clockPulse (x : Level) : seen ⟨false, x⟩ clockPulse = [.sample x] := by simp [clockPulse, seenAt]

@[simp] theorem run_clockPulse (x : Level) : Lines.run ⟨false, x⟩ clockPulse = ⟨false, x⟩ := by simp [clockPulse]

/-- SDA changes while SCL is low, so the change itself shows nothing (R97). -/
theorem seenAt_of_scl_low (x v : Level) : seenAt ⟨false, x⟩ ⟨false, v⟩ = [] := by simp [seenAt]

@[simp] theorem seen_bitCell (x v : Level) : seen ⟨false, x⟩ (bitCell v) = [.sample v] := by
  simp [bitCell, seenAt_of_scl_low]

@[simp] theorem run_bitCell (x v : Level) : Lines.run ⟨false, x⟩ (bitCell v) = ⟨false, v⟩ := by simp [bitCell]

/-- R101: the acknowledge clock samples what the byte's last cell left, or the released line. -/
@[simp] theorem seen_ackCell (x rel : Level) : seen ⟨false, x⟩ (ackCell rel) = [.sample (rel || x)] := by
  cases rel with
  | false => simp [ackCell]
  | true => simp [ackCell, seenAt_of_scl_low]

/-- Cells in a row are sampled in order: each leaves SCL low for the next. -/
theorem seen_bitCells (x : Level) (vs : List Level) : seen ⟨false, x⟩ (vs.flatMap bitCell) = vs.map .sample := by
  induction vs generalizing x with
  | nil => rfl
  | cons v vs ih => simp [ih]

theorem run_bitCells (x : Level) (vs : List Level) :
    Lines.run ⟨false, x⟩ (vs.flatMap bitCell) = ⟨false, vs.getLastD x⟩ := by
  induction vs generalizing x with
  | nil => rfl
  | cons v vs ih => simp only [List.flatMap_cons, Lines.run_append, run_bitCell, ih, List.getLastD_cons]

/-! ### A byte, from SCL low -/

theorem bitsMsbFirst_eq_wireBits (b : Byte) : bitsMsbFirst b = Claim.wireBits b := rfl

@[simp] theorem length_wireBits (b : Byte) : (Claim.wireBits b).length = 8 := rfl

/-- R43: the entry for the k-th data clock. -/
theorem getElem?_wireBits (b : Byte) {k : Nat} (h1 : 1 ≤ k) (h8 : k ≤ 8) :
    (Claim.wireBits b)[k - 1]? = some (b.getLsbD (8 - k)) := by
  have hj : 7 - (k - 1) = 8 - k := by omega
  have hlt : k - 1 < 8 := by omega
  simp [Claim.wireBits, hlt, hj]

/-- R93, R101: a byte written from SCL low shows its eight bits and the acknowledge sample, and nothing else. -/
theorem seen_wrb_of_scl_low (b : Byte) (x rel : Level) :
    seen ⟨false, x⟩ (expandWith rel (.wrb b)) = Claim.byteSamples rel b := by
  have hlast : (Claim.wireBits b).getLastD x = b.getLsbD 0 := rfl
  simp only [expandWith, expandWrb, bitsMsbFirst_eq_wireBits, seen_append, seen_bitCells, run_bitCells, hlast, seen_ackCell,
    Claim.byteSamples]

@[simp] theorem samplesOf_map_sample (vs : List Level) : samplesOf (vs.map .sample) = vs := by
  induction vs with
  | nil => rfl
  | cons v vs ih => simp [samplesOf, ih]

theorem samplesOf_byteSamples (rel : Level) (b : Byte) :
    samplesOf (Claim.byteSamples rel b) = Claim.wireBits b ++ [rel || b.getLsbD 0] := by
  simp [Claim.byteSamples, samplesOf]

/-! ### The SDA wire -/

/-- An environment that drives nothing at these samples leaves them as the block drives them (R29). -/
theorem wireSamples_eq_self {env : Nat → Level} {vs : List Level} (h : ∀ j, j < vs.length → env j = true) :
    wireSamples env vs = vs := by
  refine List.ext_getElem (by simp [wireSamples]) fun j _ hj => ?_
  simp [wireSamples, h j hj]

theorem wireSamples_concat (env : Nat → Level) (vs : List Level) (v : Level) :
    wireSamples env (vs ++ [v]) = wireSamples env vs ++ [v && env vs.length] := by simp [wireSamples]

/-! ### The statement -/

/-- Settles O30: what is seen is `Claim.byteSamples`, whose first eight entries are the bits in wire order. -/
theorem byteGoesOutMsbFirst : Obligations.ByteGoesOutMsbFirst := by
  intro b x rel
  rw [seen_wrb_of_scl_low]
  refine ⟨rfl, fun k h1 h8 => ?dataClock, fun env henv => ?onTheWire⟩
  case dataClock =>
    have hlt : k - 1 < ((Claim.wireBits b).map Seen.sample).length := by rw [List.length_map, length_wireBits]; omega
    rw [Claim.byteSamples, List.getElem?_append_left hlt, List.getElem?_map, getElem?_wireBits b h1 h8, Option.map_some]
  case onTheWire =>
    rw [samplesOf_byteSamples, wireSamples_concat, wireSamples_eq_self (vs := Claim.wireBits b) henv, length_wireBits]

end Sys2Proof.Machine
end

section
/-! SUPPORT. Proofs of the statements about the encoding (30_encoding.md R61, R63 to R65): what `decode` answers on each row of
R61's table, and which words it refuses. -/

namespace Sys2Proof

/-! ### The rows of the decoder -/

/-- R61's table names six of the sixteen `OP` values; the rest are R64's. -/
theorem op_reserved_or_named (op : BitVec 4) :
    (op = 0 ∨ 7 ≤ op.toNat) ∨ op = 1 ∨ op = 2 ∨ op = 3 ∨ op = 4 ∨ op = 5 ∨ op = 6 := by
  revert op; decide

theorem op_not_named_of_reserved {op : BitVec 4} (h : op = 0 ∨ 7 ≤ op.toNat) :
    op ≠ 1 ∧ op ≠ 2 ∧ op ≠ 3 ∧ op ≠ 4 ∧ op ≠ 5 ∧ op ≠ 6 := by
  revert op; decide

/-- R63: `Z` is looked at before anything else. -/
theorem decode_of_zField_ne {w : CmdWord} (h : zField w ≠ 0) : decode w = .error .zField := if_pos h

section Rows
variable {w : CmdWord} (hz : zField w = 0)
include hz

theorem decode_of_op_reserved (h : opField w = 0 ∨ 7 ≤ (opField w).toNat) : decode w = .error .opcode := by
  obtain ⟨h1, h2, h3, h4, h5, h6⟩ := op_not_named_of_reserved h
  rw [decode, if_neg (not_not.mpr hz), if_neg h1, if_neg h2, if_neg h3, if_neg h4, if_neg h5, if_neg h6]

theorem decode_of_op_start (h : opField w = 1) :
    decode w = if argField w = 0 then .ok .start else .error .argField := by simp [decode, hz, h]

theorem decode_of_op_stop (h : opField w = 2) :
    decode w = if argField w = 0 then .ok .stop else .error .argField := by simp [decode, hz, h]

theorem decode_of_op_wrb (h : opField w = 3) :
    decode w = if argHigh w = 0 then .ok (.wrb (byteOperand w)) else .error .argField := by simp [decode, hz, h]

theorem decode_of_op_cmd (h : opField w = 4) :
    decode w = if argHigh w = 0 then .ok (.cmd (byteOperand w)) else .error .argField := by simp [decode, hz, h]

theorem decode_of_op_dat (h : opField w = 5) :
    decode w = if argHigh w = 0 then .ok (.dat (byteOperand w)) else .error .argField := by simp [decode, hz, h]

theorem decode_of_op_wait (h : opField w = 6) : decode w = .ok (.wait (countOperand w)) := by simp [decode, hz, h]

end Rows

/-- A row that asks a field to be 0 refuses exactly the words whose field is not. -/
theorem exists_error_row {p : Prop} [Decidable p] {i : Instr} {e : Reserved} :
    (∃ r, (if p then .ok i else .error e : Except Reserved Instr) = .error r) ↔ ¬p := by
  by_cases h : p <;> simp [h]

/-! ### The statement -/

/-- R63, R64 in the decoder's own fields: row by row, the only clause left is the one that row checks. -/
theorem decode_error_iff (w : CmdWord) : (∃ r, decode w = .error r) ↔
    (opField w = 0 ∨ 7 ≤ (opField w).toNat) ∨ zField w ≠ 0 ∨
    ((opField w = 1 ∨ opField w = 2) ∧ argField w ≠ 0) ∨
    ((opField w = 3 ∨ opField w = 4 ∨ opField w = 5) ∧ argHigh w ≠ 0) := by
  by_cases hz : zField w = 0
  case neg => exact iff_of_true ⟨_, decode_of_zField_ne hz⟩ (.inr (.inl hz))
  obtain hop | hop | hop | hop | hop | hop | hop := op_reserved_or_named (opField w)
  · exact iff_of_true ⟨_, decode_of_op_reserved hz hop⟩ (.inl hop)
  · rw [decode_of_op_start hz hop, exists_error_row]; simp [hz, hop]
  · rw [decode_of_op_stop hz hop, exists_error_row]; simp [hz, hop]
  · rw [decode_of_op_wrb hz hop, exists_error_row]; simp [hz, hop]
  · rw [decode_of_op_cmd hz hop, exists_error_row]; simp [hz, hop]
  · rw [decode_of_op_dat hz hop, exists_error_row]; simp [hz, hop]
  · simp [decode_of_op_wait hz hop, hz, hop]

end Sys2Proof

namespace Sys2Proof.Machine

/-- Settles O6: the statement's bit ranges are the decoder's fields (R60), for which `decode_error_iff` says it. -/
theorem reservedWordsExactly : Obligations.ReservedWordsExactly := decode_error_iff

end Sys2Proof.Machine
end

section
/-! SUPPORT. Proofs of the statements about the encoder's bytes (42_nibble_encoder.md R110 to R112). -/

namespace Sys2Proof.Machine

/-- R111: the two control constants are one pattern, with register select in bit 0. -/
theorem ctl_eq_or_rs (rs : Bool) : ctl rs = 0x08 ||| (if rs then 1 else 0) := by
  cases rs
  case false => rfl
  case true => rfl

/-- Settles O34: the bytes are the two nibbles' triples by definition, so all there is to say is the pattern `ctl`. -/
theorem encoderMakesTwoTriples : Obligations.EncoderMakesTwoTriples := by
  intro rs v c hi lo
  have hc : ctl rs = c := ctl_eq_or_rs rs
  change triple rs hi ++ triple rs lo = _
  rw [triple, triple, hc]
  rfl

end Sys2Proof.Machine
end

section
/-! SUPPORT. Proofs of the statements about the host's cursor address and time (43_host_sequences.md R131, R142). -/

namespace Sys2Proof.Machine

/-! ### The cursor address -/

/-- R131: the display address before it is cut to the payload's 8 bits fits in them for every tested column. -/
theorem cursorAddress_lt_of_col_lt (row : Nat) {col : Nat} (h : col < 40) :
    (if row = 0 then 0x80 else 0xC0) + col < 256 := by
  split <;> omega

/-- Settles O44: the payload is the address cut to 8 bits, which is the address itself where it fits. -/
theorem setCursorAddress : Obligations.SetCursorAddress := fun row _ =>
  ⟨_, rfl, BitVec.toNat_ofNat _ 8, fun hcol =>
    (BitVec.toNat_ofNat _ 8).trans (Nat.mod_eq_of_lt (cursorAddress_lt_of_col_lt row hcol))⟩

/-! ### A second's advance, by its carries -/

/-- R142's line for the hours, with D26's ceiling. -/
def hoursAfter (ceiling : Option Nat) (h : Nat) : Nat := if ceiling = some (h + 1) then 0 else h + 1

@[simp] theorem hoursAfter_none (h : Nat) : hoursAfter none h = h + 1 := rfl

/-- Below a ceiling the hours stay below it: they wrap at the last hour and count on before it. -/
theorem hoursAfter_some {h c : Nat} (hc : h < c) :
    (h + 1 = c ∧ hoursAfter (some c) h = 0) ∨ (h + 1 < c ∧ hoursAfter (some c) h = h + 1) := by
  obtain heq | hlt := Nat.eq_or_lt_of_le (Nat.succ_le_of_lt hc)
  · exact .inl ⟨heq, if_pos (congrArg some heq.symm)⟩
  · exact .inr ⟨hlt, if_neg fun he => hlt.ne' (Option.some.inj he)⟩

section Carries
variable {x : HostState} (ceiling : Option Nat)

theorem HostState.advance_no_carry (hm : x.m < 60) (hs : x.s < 59) : x.advance ceiling = { x with s := x.s + 1 } := by
  have hs1 : x.s + 1 ≠ 60 := by omega
  simp [advance, hs1, hm.ne]

theorem HostState.advance_carry_minute (hm : x.m < 59) (hs : x.s = 59) :
    x.advance ceiling = { x with m := x.m + 1, s := 0 } := by
  have hm1 : x.m + 1 ≠ 60 := by omega
  simp [advance, hs, hm1]

theorem HostState.advance_carry_hour (hm : x.m = 59) (hs : x.s = 59) :
    x.advance ceiling = { x with h := hoursAfter ceiling x.h, m := 0, s := 0 } := by
  simp [advance, hs, hm, hoursAfter]

/-- R142: with minutes and seconds below 60, an advance is one of its three carries. -/
theorem HostState.advance_cases (hm : x.m < 60) (hs : x.s < 60) :
    (x.s < 59 ∧ x.advance ceiling = { x with s := x.s + 1 }) ∨
    (x.m < 59 ∧ x.s = 59 ∧ x.advance ceiling = { x with m := x.m + 1, s := 0 }) ∨
    (x.m = 59 ∧ x.s = 59 ∧ x.advance ceiling = { x with h := hoursAfter ceiling x.h, m := 0, s := 0 }) := by
  obtain hs' | hs' : x.s < 59 ∨ x.s = 59 := by omega
  · exact .inl ⟨hs', advance_no_carry ceiling hm hs'⟩
  obtain hm' | hm' : x.m < 59 ∨ x.m = 59 := by omega
  · exact .inr (.inl ⟨hm', hs', advance_carry_minute ceiling hm' hs'⟩)
  · exact .inr (.inr ⟨hm', hs', advance_carry_hour ceiling hm' hs'⟩)

end Carries

/-! ### What each part of the statement says of the three carries -/

/-- An advance leaves the run flag and both remembered levels alone. -/
theorem HostState.advance_frame (ceiling : Option Nat) (x : HostState) :
    (x.advance ceiling).run = x.run ∧ (x.advance ceiling).lastSs = x.lastSs ∧ (x.advance ceiling).lastRst = x.lastRst :=
  ⟨rfl, rfl, rfl⟩

section Below60
variable {x : HostState} (hm : x.m < 60) (hs : x.s < 60)
include hm hs

theorem HostState.advance_below_60 (ceiling : Option Nat) :
    (x.advance ceiling).m < 60 ∧ (x.advance ceiling).s < 60 := by
  obtain ⟨_, h⟩ | ⟨_, _, h⟩ | ⟨_, _, h⟩ := advance_cases ceiling hm hs
  all_goals
    simp only [h]
    omega

/-- Without a ceiling every carry moves 60 of one unit into one of the next. -/
theorem HostState.advance_none_time : (x.advance none).h * 3600 + (x.advance none).m * 60 + (x.advance none).s =
    x.h * 3600 + x.m * 60 + x.s + 1 := by
  obtain ⟨_, h⟩ | ⟨_, _, h⟩ | ⟨_, _, h⟩ := advance_cases none hm hs
  all_goals
    simp only [h, hoursAfter_none]
    omega

/-- With a ceiling only the carry out of the last hour differs: it gives 0:00:00. -/
theorem HostState.advance_some_time {c : Nat} (hc : x.h < c) :
    (x.advance (some c)).h < c ∧
    ((x.advance (some c)).h * 3600 + (x.advance (some c)).m * 60 + (x.advance (some c)).s =
        x.h * 3600 + x.m * 60 + x.s + 1 ∨
      (x.advance (some c)).h = 0 ∧ (x.advance (some c)).m = 0 ∧ (x.advance (some c)).s = 0 ∧
        x.h + 1 = c ∧ x.m = 59 ∧ x.s = 59) := by
  obtain ⟨_, h⟩ | ⟨_, _, h⟩ | ⟨hm59, hs59, h⟩ := advance_cases (some c) hm hs
  · simp only [h]
    omega
  · simp only [h]
    omega
  obtain ⟨hlast, hh⟩ | ⟨hlt, hh⟩ := hoursAfter_some hc
  · rw [h, hh]
    exact ⟨Nat.zero_lt_of_lt hc, .inr ⟨rfl, rfl, rfl, hlast, hm59, hs59⟩⟩
  · simp only [h, hh]
    omega

end Below60

/-- Settles O45: the time by the three carries, minutes and seconds and the frame the same with and without a ceiling. -/
theorem timeAdvanceAddsOneSecond : Obligations.TimeAdvanceAddsOneSecond := by
  refine fun x hm hs => ⟨?noCeiling, fun c hc => ?ceiling⟩
  case noCeiling =>
    obtain ⟨hm', hs'⟩ := HostState.advance_below_60 hm hs none
    exact ⟨HostState.advance_none_time hm hs, hm', hs', x.advance_frame none⟩
  case ceiling =>
    obtain ⟨hm', hs'⟩ := HostState.advance_below_60 hm hs (some c)
    obtain ⟨hh, htime⟩ := HostState.advance_some_time hm hs hc
    obtain ⟨hrun, hss, hrst⟩ := x.advance_frame (some c)
    exact ⟨hh, hm', hs', hrun, hss, hrst, htime⟩

end Sys2Proof.Machine
end

section
/-! SUPPORT. Proofs of the statements about reset (70_reset_and_hazards.md R180; 60_exceptions.md R164): the two releases in
either order, what they change in the waveform, and what a receiver sees of them. -/

namespace Sys2Proof.Machine

/-! ### The two orders of a reset's releases -/

theorem resetEvents_scl_first {T : Timing} {k : Nat} (h : T.resetSdaFirst k = false) :
    resetEvents T k = [.set .scl true, .set .sda true] := by simp [resetEvents, h]

theorem resetEvents_sda_first {T : Timing} {k : Nat} (h : T.resetSdaFirst k = true) :
    resetEvents T k = [.set .sda true, .set .scl true] := by simp [resetEvents, h]

theorem resetEvents_cases (T : Timing) (k : Nat) :
    resetEvents T k = [.set .scl true, .set .sda true] ∨ resetEvents T k = [.set .sda true, .set .scl true] := by
  cases h : T.resetSdaFirst k with
  | false => exact .inl (resetEvents_scl_first h)
  | true => exact .inr (resetEvents_sda_first h)

/-- Under reset the only events that start are the releases, whatever was pending. -/
theorem startedEvents_of_reset {s : State} (hf : s.refused = false) (hr : s.port.rst = true) (T : Timing) (k : Nat) :
    startedEvents T k s = resetEvents T k := by simp [startedEvents, hf, hr]

/-! ### The waveform of the releases -/

@[simp] theorem waveform_nil (a : Lines) : waveform a [] = [] := rfl

theorem length_waveform_cons (a : Lines) (e : TimedEvent) (es : List TimedEvent) :
    (waveform a (e :: es)).length =
      (if a.apply e.event = a then 0 else 1) + (waveform (a.apply e.event) es).length := by
  by_cases h : a.apply e.event = a
  case pos => simp [waveform, h]
  case neg => simp [waveform, h, Nat.add_comm]

@[simp] theorem Lines.mk_scl_eq_self (a : Lines) (v : Level) : (⟨v, a.sda⟩ : Lines) = a ↔ a.scl = v := by
  cases a; simp [eq_comm]

@[simp] theorem Lines.mk_sda_eq_self (a : Lines) (v : Level) : (⟨a.scl, v⟩ : Lines) = a ↔ a.sda = v := by
  cases a; simp [eq_comm]

/-- A release of one line does not touch the other, so in either order each shows exactly when its line was 0. -/
theorem length_waveform_resetEvents (a : Lines) (T : Timing) (k now : Nat) :
    (waveform a ((resetEvents T k).map (TimedEvent.mk now))).length =
      (if a.scl then 0 else 1) + (if a.sda then 0 else 1) := by
  obtain h | h := resetEvents_cases T k
  · simp [h, length_waveform_cons]
  · simp [h, length_waveform_cons, Nat.add_comm]

/-! ### What a receiver sees of the releases -/

/-- Where a line is released already, its own release shows nothing, so the order does not matter. -/
theorem seen_resetEvents_of_released {a : Lines} (h : a.scl = true ∨ a.sda = true) (T : Timing) (k : Nat) :
    seen a (resetEvents T k) = seenAt a ⟨true, true⟩ := by
  obtain ⟨c, d⟩ := a
  obtain ho | ho := resetEvents_cases T k
  all_goals
    rw [ho]
    obtain rfl | rfl : c = true ∨ d = true := h
    · cases d <;> rfl
    · cases c <;> rfl

/-! ### The statement -/

/-- Settles O2: the step is `step_reset`; the events that start are `resetEvents`, whose order is the timing's draw. -/
theorem resetReleasesLinesAndAbandons : Obligations.ResetReleasesLinesAndAbandons := by
  intro s hf hr
  have hev := startedEvents_of_reset hf hr
  have hready : s.cmdReady = false := by simp [State.cmdReady, hr]
  simp only [hev]
  refine ⟨step_reset hf hr, hready, ?sclFirst, ?sdaFirst, fun T k => ⟨resetEvents_cases T k, ?changes, ?seen⟩⟩
  case sclFirst => exact ⟨{ canonical with resetSdaFirst := fun _ => false }, 0, resetEvents_scl_first rfl⟩
  case sdaFirst => exact ⟨{ canonical with resetSdaFirst := fun _ => true }, 0, resetEvents_sda_first rfl⟩
  case changes => exact length_waveform_resetEvents s.lines T k
  case seen =>
    refine ⟨fun h => ?idle, fun h => ?sdaLow, fun h => ?sclLow, fun h ho => ?bothSclFirst, fun h ho => ?bothSdaFirst⟩
    case idle => rw [h, seen_resetEvents_of_released (.inl rfl)]; rfl
    case sdaLow => rw [h, seen_resetEvents_of_released (.inl rfl)]; rfl
    case sclLow => rw [h, seen_resetEvents_of_released (.inr rfl)]; rfl
    case bothSclFirst => rw [h, ho]; rfl
    case bothSdaFirst => rw [h, ho]; rfl

end Sys2Proof.Machine
end

section
/-! SUPPORT. Proofs of the statements about the round trip between commands and words (30_encoding.md R60 to R62, R65, R68):
the fields of a packed word, and the word put together from its fields. -/

namespace Sys2Proof

/-! ### The fields of a packed word -/

@[simp] theorem opField_packWord (op : BitVec 4) (arg : BitVec 24) : opField (packWord op arg) = op := by
  rw [opField, packWord, BitVec.append_assoc, BitVec.extractLsb'_cast]
  exact BitVec.extractLsb'_append_eq_left

@[simp] theorem zField_packWord (op : BitVec 4) (arg : BitVec 24) : zField (packWord op arg) = 0 := by
  rw [zField, packWord, BitVec.extractLsb'_append_eq_of_le (Nat.le_refl 24)]
  exact BitVec.extractLsb'_append_eq_right

@[simp] theorem argField_packWord (op : BitVec 4) (arg : BitVec 24) : argField (packWord op arg) = arg :=
  BitVec.extractLsb'_append_eq_right

/-- R61, R62: a byte operand stands below 16 bits that must be 0. -/
theorem setWidth_byte (b : Byte) : b.setWidth 24 = 0#16 ++ b := BitVec.setWidth_eq_append (by decide)

@[simp] theorem argHigh_packWord_byte (op : BitVec 4) (b : Byte) : argHigh (packWord op (b.setWidth 24)) = 0 := by
  rw [argHigh, packWord, BitVec.extractLsb'_append_eq_of_add_le (by decide), setWidth_byte]
  exact BitVec.extractLsb'_append_eq_left

@[simp] theorem byteOperand_packWord_byte (op : BitVec 4) (b : Byte) :
    byteOperand (packWord op (b.setWidth 24)) = b := by
  rw [byteOperand, packWord, BitVec.extractLsb'_append_eq_of_add_le (by decide), setWidth_byte]
  exact BitVec.extractLsb'_append_eq_right

@[simp] theorem countOperand_packWord {n : Nat} (op : BitVec 4) (h : n < 2 ^ 24) :
    countOperand (packWord op (BitVec.ofNat 24 n)) = n := by
  rw [countOperand, argField_packWord, BitVec.toNat_ofNat, Nat.mod_eq_of_lt h]

/-! ### A word from its fields -/

/-- R60: `OP` and `ARG` are the whole of a word whose `Z` is 0. -/
theorem packWord_fields {w : CmdWord} (hz : zField w = 0) : packWord (opField w) (argField w) = w := by
  have hOpZ : opField w ++ 0x0#4 = w.extractLsb' 24 8 := by
    rw [show 0x0#4 = zField w from hz.symm]
    exact BitVec.extractLsb'_append_extractLsb'_eq_extractLsb' rfl
  rw [packWord, hOpZ]
  exact (BitVec.extractLsb'_append_extractLsb'_eq_extractLsb' rfl).trans BitVec.extractLsb'_eq_self

/-- R62: the byte operand is the whole of `ARG` where the part above it is 0. -/
theorem setWidth_byteOperand {w : CmdWord} (h : argHigh w = 0) : (byteOperand w).setWidth 24 = argField w := by
  rw [setWidth_byte, show 0#16 = argHigh w from h.symm]
  exact BitVec.extractLsb'_append_extractLsb'_eq_extractLsb' rfl

/-- R62: the count operand is the whole of `ARG`. -/
theorem ofNat_countOperand (w : CmdWord) : BitVec.ofNat 24 (countOperand w) = argField w := by
  rw [countOperand, BitVec.ofNat_toNat, BitVec.setWidth_eq]

/-! ### What a word that decodes is made of -/

theorem wellFormed_wait_iff {n : Nat} : (Instr.wait n).WellFormed ↔ n < 2 ^ 24 := decide_eq_true_iff

/-- A row that asks a field to be 0 answers its command only for words whose field is. -/
theorem ok_row {p : Prop} [Decidable p] {i j : Instr} {e : Reserved} :
    (if p then .ok j else .error e : Except Reserved Instr) = .ok i ↔ p ∧ j = i := by
  by_cases h : p <;> simp [h]

/-- The row of R61's table that a word with `Z` = 0 decodes by. -/
theorem decode_ok_cases {w : CmdWord} {i : Instr} (h : decode w = .ok i) :
    zField w = 0 ∧
    ((opField w = 1 ∧ argField w = 0 ∧ i = .start) ∨ (opField w = 2 ∧ argField w = 0 ∧ i = .stop) ∨
     (opField w = 3 ∧ argHigh w = 0 ∧ i = .wrb (byteOperand w)) ∨
     (opField w = 4 ∧ argHigh w = 0 ∧ i = .cmd (byteOperand w)) ∨
     (opField w = 5 ∧ argHigh w = 0 ∧ i = .dat (byteOperand w)) ∨ (opField w = 6 ∧ i = .wait (countOperand w))) := by
  by_cases hz : zField w = 0
  case neg => rw [decode_of_zField_ne hz] at h; contradiction
  refine ⟨hz, ?_⟩
  obtain hop | hop | hop | hop | hop | hop | hop := op_reserved_or_named (opField w)
  · rw [decode_of_op_reserved hz hop] at h; contradiction
  · rw [decode_of_op_start hz hop, ok_row] at h; simp [hop, h.1, h.2.symm]
  · rw [decode_of_op_stop hz hop, ok_row] at h; simp [hop, h.1, h.2.symm]
  · rw [decode_of_op_wrb hz hop, ok_row] at h; simp [hop, h.1, h.2.symm]
  · rw [decode_of_op_cmd hz hop, ok_row] at h; simp [hop, h.1, h.2.symm]
  · rw [decode_of_op_dat hz hop, ok_row] at h; simp [hop, h.1, h.2.symm]
  · rw [decode_of_op_wait hz hop] at h; cases h; simp [hop]

end Sys2Proof

namespace Sys2Proof.Machine

/-! ### The statements -/

/-- Settles O4: the fields of a packed word choose its own row of the decoder, and give the operand back. -/
theorem decodeOfEncode : Obligations.DecodeOfEncode := by
  intro i hi
  cases i with
  | start => rw [encode, decode_of_op_start (by simp) (by simp)]; simp
  | stop => rw [encode, decode_of_op_stop (by simp) (by simp)]; simp
  | wrb b => rw [encode, decode_of_op_wrb (by simp) (by simp)]; simp
  | cmd v => rw [encode, decode_of_op_cmd (by simp) (by simp)]; simp
  | dat v => rw [encode, decode_of_op_dat (by simp) (by simp)]; simp
  | wait n =>
    have hn : n < 2 ^ 24 := wellFormed_wait_iff.mp hi
    rw [encode, decode_of_op_wait (by simp) (by simp), countOperand_packWord _ hn]

/-- Settles O5: each row of the decoder answers a command made of the fields, and `Z` being 0, the fields are the word. -/
theorem encodeOfDecode : Obligations.EncodeOfDecode := by
  intro w i h
  obtain ⟨hz, hrow⟩ := decode_ok_cases h
  have hw := packWord_fields hz
  obtain ⟨hop, ha, rfl⟩ | ⟨hop, ha, rfl⟩ | ⟨hop, ha, rfl⟩ | ⟨hop, ha, rfl⟩ | ⟨hop, ha, rfl⟩ | ⟨hop, rfl⟩ := hrow
  · rw [hop, ha] at hw; exact ⟨rfl, hw⟩
  · rw [hop, ha] at hw; exact ⟨rfl, hw⟩
  · rw [hop, ← setWidth_byteOperand ha] at hw; exact ⟨rfl, hw⟩
  · rw [hop, ← setWidth_byteOperand ha] at hw; exact ⟨rfl, hw⟩
  · rw [hop, ← setWidth_byteOperand ha] at hw; exact ⟨rfl, hw⟩
  · rw [hop, ← ofNat_countOperand] at hw
    exact ⟨wellFormed_wait_iff.mpr (argField w).isLt, hw⟩

/-- Settles O3: the words of the spec's tables, evaluated. -/
theorem specWordsDecode : Obligations.SpecWordsDecode :=
  ⟨rfl, rfl, rfl, rfl, rfl, rfl, rfl, rfl, rfl, rfl, rfl, rfl⟩

end Sys2Proof.Machine
end

section
/-! SUPPORT. Proofs of the statements about the encoder's bytes by hexadecimal digits (42_nibble_encoder.md R110 to R112, R117,
R118, R121). -/

namespace Sys2Proof.Machine

/-! ### The two nibble fields -/

/-- R110: the mask keeps the high digit and clears the low one. -/
theorem and_F0 (v : Byte) : v &&& 0xF0 = v.extractLsb' 4 4 ++ 0#4 := by
  have hv : v.extractLsb' 4 4 ++ v.extractLsb' 0 4 = v :=
    (BitVec.extractLsb'_append_extractLsb'_eq_extractLsb' rfl).trans BitVec.extractLsb'_eq_self
  have hmask : (0xF0 : Byte) = BitVec.allOnes 4 ++ 0#4 := rfl
  calc v &&& 0xF0 = (v.extractLsb' 4 4 ++ v.extractLsb' 0 4) &&& (BitVec.allOnes 4 ++ 0#4) := by rw [hv, hmask]
    _ = v.extractLsb' 4 4 ++ 0#4 := by rw [BitVec.and_append, BitVec.and_allOnes, BitVec.and_zero]

theorem hiNibble_eq (v : Byte) : hiNibble v = v.extractLsb' 4 4 ++ 0#4 := and_F0 v

theorem loNibble_eq (v : Byte) : loNibble v = v.extractLsb' 0 4 ++ 0#4 := by
  have hShift : v <<< 4 = v.extractLsb' 0 4 ++ 0#4 := BitVec.shiftLeft_eq_concat_of_lt (by decide)
  rw [loNibble, and_F0, hShift, BitVec.extractLsb'_append_eq_left]

/-- R121: a nibble's triple by digits: the digit of the nibble, then the control digit, with the enable strobe in the second. -/
theorem triple_nibble (rs : Bool) (h : BitVec 4) :
    triple rs (h ++ 0#4) = let c : BitVec 4 := if rs then 0x9 else 0x8; [h ++ c, h ++ (c ||| 0x4), h ++ c] := by
  revert rs h; decide

/-- Settles O35: each nibble field is a digit above 0, and its triple puts the control digit below. -/
theorem encoderByteTable : Obligations.EncoderByteTable := fun v => by
  simp only [encoderBytes, hiNibble_eq, loNibble_eq, triple_nibble]
  exact ⟨rfl, rfl⟩

/-- R121 for both paths at once. -/
theorem encoderBytes_eq_sixBytes (rs : Bool) (v : Byte) :
    encoderBytes rs v = if rs then Claim.sixBytes 0x9 0xD v else Claim.sixBytes 0x8 0xC v := by
  obtain ⟨hCmd, hDat⟩ := encoderByteTable v
  cases rs
  case false => exact hCmd
  case true => exact hDat

/-! ### Bits of a byte written as two digits -/

theorem getElem_digits (h l : BitVec 4) (i : Nat) (hi : i < 4) :
    (h ++ l : Byte)[i]'(Nat.lt_trans hi (by decide)) = l[i] :=
  (BitVec.getElem_append _).trans (dif_pos hi)

theorem highDigit_digits (h l : BitVec 4) : (h ++ l : Byte).extractLsb' 4 4 = h := BitVec.extractLsb'_append_eq_left

/-- Settles O36: by digits, bits 3 to 0 are those of the control digit and bits 7 to 4 are the nibble. -/
theorem enableStrobesFrameEachNibble : Obligations.EnableStrobesFrameEachNibble := by
  intro rs v
  rw [encoderBytes_eq_sixBytes]
  cases rs
  case false => simp [Claim.sixBytes, getElem_digits, highDigit_digits]
  case true => simp [Claim.sixBytes, getElem_digits, highDigit_digits]

end Sys2Proof.Machine
end

section
/-! SUPPORT. Proofs of the statements about accepting a command (10_state.md R23; 40_delay.md R81; 41_bus_controller.md R91 to
R95; 42_nibble_encoder.md R113, R114): every meaning loads its expansion (`exec_eq_load`), which is the spec's sequence. -/

namespace Sys2Proof.Machine

/-! ### The expansions that are not the spec's sequences by definition -/

theorem npe_eq_transaction (rs : Bool) (v : Byte) :
    npe ackReleaseSda rs v =
      Claim.transaction (if rs then Claim.sixBytes 0x9 0xD v else Claim.sixBytes 0x8 0xC v) := by
  rw [npe, encoderBytes_eq_sixBytes]
  rfl

theorem expandWait_pos {n : Nat} (h : 0 < n) : expandWait n = [.wait n] := if_neg h.ne'

/-! ### The statements -/

/-- Settles O15: the expansion of `START` is R91's sequence as it stands. -/
theorem startAccepted : Obligations.StartAccepted := exec_eq_load .start

/-- Settles O16: the expansion of `STOP` is R92's sequence as it stands. -/
theorem stopAccepted : Obligations.StopAccepted := exec_eq_load .stop

/-- Settles O17: the bits in wire order are the byte's, most significant first. -/
theorem wrbAccepted : Obligations.WrbAccepted := fun b s => exec_eq_load (.wrb b) s

/-- Settles O18: the encoder's bytes are the table's (R121). -/
theorem cmdAccepted : Obligations.CmdAccepted := by
  intro v s
  rw [exec_eq_load, show expand (.cmd v) = npe ackReleaseSda false v from rfl, npe_eq_transaction]
  rfl

/-- Settles O19: the encoder's bytes are the table's (R121). -/
theorem datAccepted : Obligations.DatAccepted := by
  intro v s
  rw [exec_eq_load, show expand (.dat v) = npe ackReleaseSda true v from rfl, npe_eq_transaction]
  rfl

/-- Settles O20: a count of 0 expands to nothing, any other to one wait, which is entered at once. -/
theorem waitAccepted : Obligations.WaitAccepted := by
  refine ⟨exec_eq_load (.wait 0), fun n s hn => ?_⟩
  rw [exec_eq_load, show expand (.wait n) = expandWait n from rfl, expandWait_pos hn]
  rfl

/-- Settles O21: loading an expansion writes `pending` and `wait_left` alone. -/
theorem acceptanceFrame : Obligations.AcceptanceFrame := by
  intro i s t h
  rw [exec_eq_load] at h
  cases h
  exact ⟨rfl, rfl, rfl, rfl, rfl⟩

/-- Settles O22: every meaning loads its expansion; a fault does not exist. -/
theorem noCommandFailsAndNoStepFaults : Obligations.NoCommandFailsAndNoStepFaults :=
  ⟨fun i s => ⟨_, exec_eq_load i s⟩, fun _ f => nomatch f⟩

end Sys2Proof.Machine
end

section
/-! SUPPORT. Proofs of the statements about the step (10_state.md R20, R25, R26, R29; 60_exceptions.md R161; 41_bus_controller.md
R90): each is one case of `step`. -/

namespace Sys2Proof.Machine

theorem decode_of_decodeTableWord {nbits w : Nat} {i : Instr} (h : decodeTableWord nbits w = some i) :
    decode (tableWord nbits w) = .ok i := by
  unfold decodeTableWord at h
  cases hd : decode (tableWord nbits w) with
  | ok j => rw [hd] at h; cases h; rfl
  | error r => rw [hd] at h; cases h

/-- Settles O7: an accepting step is the command's meaning, and `withFetchWord` makes the next step an accepting one. -/
theorem stepRunsDecodedCommand : Obligations.StepRunsDecodedCommand := by
  refine ⟨fun s i h => step_accepts h, fun s nbits w i h => ?_⟩
  have hAccepting : (s.withFetchWord nbits w).accepting i := ⟨rfl, rfl, rfl, rfl, decode_of_decodeTableWord h⟩
  exact step_accepts hAccepting

/-- Settles O9: the accepting step of a reserved word, and the step of a state that has the mark. -/
theorem reservedWordMarksAndStops : Obligations.ReservedWordMarksAndStops :=
  ⟨fun _ _ hf hp hr hv hd => step_reserved hf hp hr hv hd, fun _ h => step_refused h⟩

/-- Settles O11: the step performs the `Set` (`perform_set`), in `T_EDGE` (`fullTime_set`) unless a reset cuts it. -/
theorem setEventWritesItsLine : Obligations.SetEventWritesItsLine := by
  intro s l v rest hf hr hp
  have hb : s.pending ≠ [] := by simp [hp]
  refine ⟨⟨_, step_busy hf hr hb, ?frame⟩, fun T k => ?time, fun time hSame => ?invisible⟩
  case frame =>
    rw [State.perform_set (s := s.nextEdge) hp]
    refine ⟨rfl, rfl, hf, rfl, ?scl, ?sda⟩
    case scl => rintro rfl; exact ⟨rfl, rfl⟩
    case sda => rintro rfl; exact ⟨rfl, rfl⟩
  case time =>
    have hFull : fullTime T k s = T.tEdge := fullTime_set hr hp k
    exact ⟨hFull ▸ stepTime_le_fullTime T k s, fun hNext => hFull ▸ stepTime_of_no_reset hNext T k⟩
  case invisible => simp [waveform, hSame]

/-- Settles O42: busy is having something pending; the rest is each output's definition. -/
theorem outputsFollowState : Obligations.OutputsFollowState := fun s => ⟨s.busy_eq_true, rfl, rfl, rfl⟩

/-- Settles O43: a 0 on the block's side decides the AND, a 1 leaves it to the environment. -/
theorem wireIsLowWhenAnyonePulls : Obligations.WireIsLowWhenAnyonePulls := by
  intro k s
  simp only [State.wires, wireLevels, State.lines_scl, State.lines_sda]
  refine ⟨fun h => ?_, fun h => ?_, fun h => ?_, fun h => ?_⟩
  · rw [h, Bool.false_and]
  · rw [h, Bool.false_and]
  · rw [h, Bool.true_and]
  · rw [h, Bool.true_and]

end Sys2Proof.Machine
end

section
/-! SUPPORT. Proofs of the statements about an expansion alone: where it leaves the lines (41_bus_controller.md R91 to R93, R98),
what a receiver sees of it (R97, R99, R101; 30_encoding.md R67), and what it counts (R102; 42_nibble_encoder.md R119). -/

namespace Sys2Proof.Machine

/-! ### The expansion of each command -/

section Expansions
variable (rel : Bool)

@[simp] theorem expandWith_start : expandWith rel .start = expandStart := rfl
@[simp] theorem expandWith_stop : expandWith rel .stop = expandStop := rfl
@[simp] theorem expandWith_wrb (b : Byte) : expandWith rel (.wrb b) = expandWrb rel b := rfl
@[simp] theorem expandWith_cmd (v : Byte) : expandWith rel (.cmd v) = npe rel false v := rfl
@[simp] theorem expandWith_dat (v : Byte) : expandWith rel (.dat v) = npe rel true v := rfl
@[simp] theorem expandWith_wait (n : Nat) : expandWith rel (.wait n) = expandWait n := rfl

end Expansions

/-- One transaction: a start condition, the bytes, a stop condition (R67, R115). -/
def transaction (rel : Bool) (bs : List Byte) : List Event := expandStart ++ bs.flatMap (expandWrb rel) ++ expandStop

theorem npe_eq (rel rs : Bool) (v : Byte) :
    npe rel rs v = transaction rel (busAddr :: encoderBytes rs v) ++ [.wait tSettleUs] := rfl

theorem flatMap_expand_xfer (rel : Bool) (a : Byte) (bs : List Byte) :
    (xfer a bs).flatMap (expandWith rel) = transaction rel (a :: bs) := by
  simp [xfer, transaction, List.flatMap_map]

/-- A `WAIT` expands to waits alone: one, or none for 0. -/
theorem expandWait_cases (n : Nat) : (n = 0 ∧ expandWait n = []) ∨ (0 < n ∧ expandWait n = [.wait n]) := by
  rcases Nat.eq_zero_or_pos n with rfl | h
  · exact .inl ⟨rfl, rfl⟩
  · exact .inr ⟨h, expandWait_pos h⟩

/-! ### Where an expansion leaves the lines, from any line state -/

section Ends
variable (a : Lines) (rel : Bool)

@[simp] theorem run_expandStart : a.run expandStart = ⟨false, false⟩ := rfl
@[simp] theorem run_expandStop : a.run expandStop = ⟨true, true⟩ := rfl

/-- A bit cell ends at SCL low with its bit on SDA, wherever it began. -/
theorem run_bitCell_of_any (v : Level) : a.run (bitCell v) = ⟨false, v⟩ := rfl

@[simp] theorem run_ackCell (x : Level) : Lines.run ⟨false, x⟩ (ackCell rel) = ⟨false, rel || x⟩ := by
  cases rel <;> rfl

/-- The byte's bits, the first apart: its cell is the one whose line state depends on where the byte began. -/
theorem expandWrb_eq (b : Byte) :
    expandWrb rel b = bitCell (b.getLsbD 7) ++ (Claim.wireBits b).tail.flatMap bitCell ++ ackCell rel := rfl

@[simp] theorem run_expandWrb (b : Byte) : a.run (expandWrb rel b) = ⟨false, rel || b.getLsbD 0⟩ := by
  have hlast : (Claim.wireBits b).tail.getLastD (b.getLsbD 7) = b.getLsbD 0 := rfl
  simp only [expandWrb_eq, Lines.run_append, run_bitCell_of_any, run_bitCells, hlast, run_ackCell]

/-- Bytes written from SCL low leave SCL low. -/
theorem run_bytes (x : Level) (bs : List Byte) :
    ∃ y, Lines.run ⟨false, x⟩ (bs.flatMap (expandWrb rel)) = ⟨false, y⟩ := by
  induction bs generalizing x with
  | nil => exact ⟨x, rfl⟩
  | cons b bs ih =>
    obtain ⟨y, hy⟩ := ih (rel || b.getLsbD 0)
    exact ⟨y, by rw [List.flatMap_cons, Lines.run_append, run_expandWrb, hy]⟩

@[simp] theorem run_transaction (bs : List Byte) : a.run (transaction rel bs) = ⟨true, true⟩ := by
  simp [transaction]

@[simp] theorem run_npe (rs : Bool) (v : Byte) : a.run (npe rel rs v) = ⟨true, true⟩ := by simp [npe_eq]

@[simp] theorem run_expandWait (n : Nat) : a.run (expandWait n) = a := by
  obtain ⟨_, h⟩ | ⟨_, h⟩ := expandWait_cases n
  · rw [h, Lines.run_nil]
  · rw [h]; rfl

end Ends

/-- Settles O26: each expansion but `WAIT`'s sets both lines, whatever they were. -/
theorem endLinesOfCommands : Obligations.EndLinesOfCommands := by
  intro a b v n
  simp only [expand, expandWith_start, expandWith_stop, expandWith_wrb, expandWith_cmd, expandWith_dat, expandWith_wait,
    run_expandStart, run_expandStop, run_expandWrb, run_npe, run_expandWait]
  simp [ackReleaseSda]

/-! ### What a receiver sees -/

section Seen
variable (rel : Bool)

theorem seen_start_of_released : seen ⟨true, true⟩ expandStart = [.start] := rfl

theorem seen_start_of_scl_low (x : Level) : seen ⟨false, x⟩ expandStart = [.sample true, .start] := by
  cases x <;> rfl

theorem seen_stop_of_released : seen ⟨true, true⟩ expandStop = [.start, .stop] := rfl

theorem seen_stop_of_scl_low (x : Level) : seen ⟨false, x⟩ expandStop = [.sample false, .stop] := by
  cases x <;> rfl

theorem seen_expandWrb_of_scl_low (x : Level) (b : Byte) : seen ⟨false, x⟩ (expandWrb rel b) = Claim.byteSamples rel b :=
  seen_wrb_of_scl_low b x rel

/-- R99: from the idle lines the first bit is not sampled, SCL being high already; a 0 there is a start condition. -/
theorem seen_bitCell_of_released (v : Level) : seen ⟨true, true⟩ (bitCell v) = if v then [] else [.start] := by
  cases v <;> rfl

theorem seen_expandWrb_of_released (b : Byte) :
    seen ⟨true, true⟩ (expandWrb rel b) = (if b.getLsbD 7 then [] else [.start]) ++ (Claim.byteSamples rel b).tail := by
  have hlast : (Claim.wireBits b).tail.getLastD (b.getLsbD 7) = b.getLsbD 0 := rfl
  have htail : (Claim.byteSamples rel b).tail =
      (Claim.wireBits b).tail.map .sample ++ [.sample (rel || b.getLsbD 0)] := rfl
  simp only [expandWrb_eq, seen_append, seen_bitCell_of_released, run_bitCell_of_any, seen_bitCells,
    run_bitCells, hlast, seen_ackCell, htail, List.append_assoc]

theorem seen_expandWait (a : Lines) (n : Nat) : seen a (expandWait n) = [] := by
  obtain ⟨_, h⟩ | ⟨_, h⟩ := expandWait_cases n
  · rw [h, seen_nil]
  · obtain ⟨c, d⟩ := a
    cases c <;> cases d <;> simp [h, seenAt]

/-- Bytes written from SCL low are seen byte after byte: each leaves SCL low for the next. -/
theorem seen_bytes (x : Level) (bs : List Byte) :
    seen ⟨false, x⟩ (bs.flatMap (expandWrb rel)) = bs.flatMap (Claim.byteSamples rel) := by
  induction bs generalizing x with
  | nil => rfl
  | cons b bs ih => simp only [List.flatMap_cons, seen_append, seen_expandWrb_of_scl_low, run_expandWrb, ih]

/-- After its start condition a transaction is seen the same from every line state: the bytes, the rise of `STOP`, the stop. -/
theorem seen_transaction (a : Lines) (bs : List Byte) :
    seen a (transaction rel bs) =
      seen a expandStart ++ bs.flatMap (Claim.byteSamples rel) ++ [.sample false, .stop] := by
  obtain ⟨y, hy⟩ := run_bytes rel false bs
  simp only [transaction, seen_append, Lines.run_append, run_expandStart, seen_bytes, hy, seen_stop_of_scl_low]

/-- R115: the bus shows of an encoder transaction what the spec says of its bytes, from every idle line state. -/
theorem seen_npe {a : Lines} (ha : a.legalIdle) (rs : Bool) (v : Byte) :
    seen a (npe rel rs v) = Claim.transactionSeen rel a.scl (encoderBytes rs v) := by
  have hsettle : seen ⟨true, true⟩ [.wait tSettleUs] = [] := rfl
  have hstart : seen a expandStart = (if a.scl then [] else [.sample true]) ++ [.start] := by
    obtain rfl | rfl | rfl := ha
    · exact seen_start_of_released
    · exact seen_start_of_scl_low false
    · exact seen_start_of_scl_low true
  rw [npe_eq, seen_append, run_transaction, hsettle, seen_transaction, hstart]
  simp [Claim.transactionSeen, busAddr]

end Seen

/-- Settles O29: the rows of R99's table are the lemmas above. -/
theorem receiverSeesRawCommands : Obligations.ReceiverSeesRawCommands := fun b n x rel =>
  ⟨seen_start_of_released, seen_start_of_scl_low x, seen_stop_of_released, seen_stop_of_scl_low x,
    seen_expandWrb_of_released rel b, seen_expandWrb_of_scl_low rel x b, fun a => seen_expandWait a n⟩

/-- Settles O32: a transaction from the idle bus, whose start condition has no clock rise before it. -/
theorem xferIsOneTransaction : Obligations.XferIsOneTransaction := by
  intro a bs rel
  rw [flatMap_expand_xfer, seen_transaction, seen_start_of_released]
  rfl

/-! ### Reading the bytes back -/

theorem ofBool_getLsbD (b : Byte) (i : Nat) : BitVec.ofBool (b.getLsbD i) = b.extractLsb' i 1 := by
  ext j hj
  obtain rfl : j = 0 := by omega
  simp

/-- A row of bits put together again: the next lower bit extends the part of the byte read so far. -/
theorem extractLsb'_append_ofBool (b : Byte) (i k : Nat) :
    b.extractLsb' (i + 1) k ++ BitVec.ofBool (b.getLsbD i) = b.extractLsb' i (k + 1) := by
  rw [ofBool_getLsbD]
  exact BitVec.extractLsb'_append_extractLsb'_eq_extractLsb' rfl

theorem byteOfBits_bits (b : Byte) : byteOfBits (b.getLsbD 7) (b.getLsbD 6) (b.getLsbD 5) (b.getLsbD 4) (b.getLsbD 3)
    (b.getLsbD 2) (b.getLsbD 1) (b.getLsbD 0) = b := by
  rw [byteOfBits, ofBool_getLsbD b 7]
  simp only [extractLsb'_append_ofBool]
  exact BitVec.extractLsb'_eq_self

/-- R46: a byte's eight samples and its acknowledge are one group of nine. -/
theorem bytesOfSamples_byte (b : Byte) (ack : Level) (vs : List Level) :
    bytesOfSamples (Claim.wireBits b ++ [ack] ++ vs) = b :: bytesOfSamples vs :=
  congrArg (· :: bytesOfSamples vs) (byteOfBits_bits b)

/-- Settles O31: the samples of each byte are one group of nine, so a byte more written is a byte more read. -/
theorem receiverReadsBytesWritten : Obligations.ReceiverReadsBytesWritten := by
  intro bs x rel
  change bytesOfSamples (samplesOf (seen ⟨false, x⟩ (bs.flatMap (expandWrb rel)))) = bs
  rw [seen_bytes]
  induction bs with
  | nil => rfl
  | cons b bs ih =>
    rw [List.flatMap_cons, samplesOf_append, samplesOf_byteSamples, bytesOfSamples_byte, ih]

/-! ### Counts -/

section Counts
variable (rel : Bool) (b : Byte)

theorem setCount_bitCell (v : Level) : setCount (bitCell v) = 3 := rfl
theorem waitCount_bitCell (v : Level) : waitCount (bitCell v) = 2 := rfl
theorem leastMicros_bitCell (v : Level) : leastMicros (bitCell v) = 4 := rfl

@[simp] theorem setCount_expandWrb : setCount (expandWrb rel b) = if rel then 27 else 26 := by
  have hack : setCount (ackCell rel) = if rel then 3 else 2 := by cases rel <;> rfl
  cases rel <;> simp [expandWrb, bitsMsbFirst, setCount_bitCell, hack]

@[simp] theorem waitCount_expandWrb : waitCount (expandWrb rel b) = 18 := by
  have hack : waitCount (ackCell rel) = 2 := by cases rel <;> rfl
  simp [expandWrb, bitsMsbFirst, waitCount_bitCell, hack]

@[simp] theorem leastMicros_expandWrb : leastMicros (expandWrb rel b) = 36 := by
  have hack : leastMicros (ackCell rel) = 4 := by cases rel <;> rfl
  simp [expandWrb, bitsMsbFirst, leastMicros_bitCell, hack]

theorem length_samplesOf_byteSamples : (samplesOf (Claim.byteSamples rel b)).length = 9 := by
  rw [samplesOf_byteSamples]; rfl

end Counts

/-- Settles O37: the counts of the fixed sequences by evaluation, the clock rises by what is seen from SCL low. -/
theorem rawCommandEventCounts : Obligations.RawCommandEventCounts := by
  intro b x rel
  refine ⟨rfl, rfl, rfl, rfl, setCount_expandWrb rel b, waitCount_expandWrb rel b, ?start, ?stop, ?byte⟩
  case start => rw [expandWith_start, seen_start_of_scl_low]; rfl
  case stop => rw [expandWith_stop, seen_stop_of_scl_low]; rfl
  case byte => rw [expandWith_wrb, seen_expandWrb_of_scl_low, length_samplesOf_byteSamples]

section EncoderCounts
variable (rel rs : Bool) (v : Byte)

/-- R119: seven bytes of 26 or 27 `Set` events between the 4 of `START` and the 3 of `STOP`. -/
theorem setCount_npe : setCount (npe rel rs v) = if rel then 196 else 189 := by
  have hends : setCount expandStart = 4 ∧ setCount expandStop = 3 ∧ setCount [.wait tSettleUs] = 0 := by decide
  cases rel <;> simp [npe, encoderBytes, triple, hends]

theorem waitCount_npe : waitCount (npe rel rs v) = 132 := by
  have hends : waitCount expandStart = 3 ∧ waitCount expandStop = 2 ∧ waitCount [.wait tSettleUs] = 1 := by decide
  simp [npe, encoderBytes, triple, hends]

theorem leastMicros_npe : leastMicros (npe rel rs v) = 312 := by
  have hends : leastMicros expandStart = 6 ∧ leastMicros expandStop = 4 ∧ leastMicros [.wait tSettleUs] = 50 := by decide
  simp [npe, encoderBytes, triple, hends]

/-- R119: nine clock rises for each of the seven bytes, and the rise of `STOP`. -/
theorem length_samplesOf_npe : (samplesOf (seen ⟨true, true⟩ (npe rel rs v))).length = 64 := by
  rw [seen_npe rel (.inl rfl)]
  simp [Claim.transactionSeen, encoderBytes, triple, samplesOf, length_samplesOf_byteSamples]

end EncoderCounts

/-- Settles O38: both commands are an `npe`. -/
theorem encoderCommandCounts : Obligations.EncoderCommandCounts := by
  rintro v rel i (rfl | rfl)
  · exact ⟨setCount_npe rel false v, waitCount_npe rel false v, leastMicros_npe rel false v,
      length_samplesOf_npe rel false v⟩
  · exact ⟨setCount_npe rel true v, waitCount_npe rel true v, leastMicros_npe rel true v,
      length_samplesOf_npe rel true v⟩

end Sys2Proof.Machine
end

section
/-! SUPPORT. Proofs of the statements about the block's invariant (10_state.md R20; 40_delay.md R81; 41_bus_controller.md R98):
what each operation of a step needs of the state to keep it. -/

namespace Sys2Proof.Machine

/-! ### What an expansion has of the invariant -/

/-- R98: of the four line states, `WAIT` keeps and every other command ends in one of the three legal ones. -/
theorem legalIdle_run_expand {a : Lines} (ha : a.legalIdle) (i : Instr) : (a.run (expand i)).legalIdle := by
  cases i with
  | start => exact .inr (.inl rfl)
  | stop => exact .inl rfl
  | wrb b =>
    rw [expand, expandWith_wrb, run_expandWrb]
    cases ackReleaseSda || b.getLsbD 0
    · exact .inr (.inl rfl)
    · exact .inr (.inr rfl)
  | cmd v => rw [expand, expandWith_cmd, run_npe]; exact .inl rfl
  | dat v => rw [expand, expandWith_dat, run_npe]; exact .inl rfl
  | wait n => rw [expand, expandWith_wait, run_expandWait]; exact ha

/-- A bus byte's waits are all of a quantum. -/
theorem wait_zero_notMem_expandWrb (rel : Bool) (b : Byte) : Event.wait 0 ∉ expandWrb rel b := by
  cases rel <;> simp [expandWrb, bitCell, ackCell, clockPulse, qUs]

theorem wait_zero_notMem_npe (rel rs : Bool) (v : Byte) : Event.wait 0 ∉ npe rel rs v := by
  have hbytes : Event.wait 0 ∉ (busAddr :: encoderBytes rs v).flatMap (expandWrb rel) := by
    rw [List.mem_flatMap]
    rintro ⟨b, _, hb⟩
    exact wait_zero_notMem_expandWrb rel b hb
  simp only [npe, List.mem_append, not_or]
  exact ⟨⟨⟨by decide, hbytes⟩, by decide⟩, by decide⟩

/-- R81: no command expands to `Wait(0)`. -/
theorem wait_zero_notMem_expand (i : Instr) : Event.wait 0 ∉ expand i := by
  cases i with
  | start => decide
  | stop => decide
  | wrb b => exact wait_zero_notMem_expandWrb ackReleaseSda b
  | cmd v => exact wait_zero_notMem_npe ackReleaseSda false v
  | dat v => exact wait_zero_notMem_npe ackReleaseSda true v
  | wait n =>
    obtain ⟨_, h⟩ | ⟨hn, h⟩ := expandWait_cases n
    · rw [expand, expandWith_wait, h]; simp
    · rw [expand, expandWith_wait, h]; simp [hn.ne]

/-! ### What each operation keeps -/

theorem State.Inv.nextEdge {s : State} (h : s.Inv) : s.nextEdge.Inv :=
  ⟨h.waitInRange, h.noZeroWait, h.refusedIdle, h.endsLegal⟩

/-- Loading a sequence enters its head's wait in full, so only the sequence itself has to be right. -/
theorem State.inv_load {s : State} {es : List Event} (hf : s.refused = false) (h0 : Event.wait 0 ∉ es)
    (hl : (s.lines.run es).legalIdle) : (s.load es).Inv :=
  ⟨Nat.le_refl _, h0, fun hr => absurd hr (by simp [hf]), hl⟩

theorem State.inv_releaseAll (s : State) : s.releaseAll.Inv :=
  ⟨Nat.le_refl _, List.not_mem_nil, fun _ => rfl, .inl rfl⟩

theorem State.Inv.refuse {s : State} (h : s.Inv) (hp : s.pending = []) : s.refuse.Inv :=
  ⟨h.waitInRange, h.noZeroWait, fun _ => hp, h.endsLegal⟩

/-- An event performed is an event less to go to the same end. -/
theorem State.Inv.perform {s : State} (h : s.Inv) (hf : s.refused = false) : s.perform.Inv := by
  obtain ⟨hwait, hzero, hidle, hends⟩ := h
  obtain ⟨hp, hs⟩ | ⟨l, v, rest, hp, hs⟩ | ⟨n, rest, hp, _, hs⟩ | ⟨n, rest, hp, _, hs⟩ := s.perform_cases
  · rw [hs]; exact ⟨hwait, hzero, hidle, hends⟩
  · rw [hp] at hzero hends
    rw [hs]
    exact State.inv_load hf (fun hm => hzero (List.mem_cons_of_mem _ hm)) hends
  · rw [hp] at hzero hends
    rw [hs]
    exact State.inv_load hf (fun hm => hzero (List.mem_cons_of_mem _ hm)) hends
  · rw [hs]
    exact ⟨Nat.le_trans (Nat.sub_le _ _) hwait, hzero, hidle, hends⟩

/-! ### The statements -/

/-- Settles O28: by what the step did (`step_cases`); an accepting block is idle, so its lines are legal before the command. -/
theorem stepKeepsInvariant : Obligations.StepKeepsInvariant := by
  intro s t h hstep
  obtain ⟨hf, ⟨_, rfl⟩ | ⟨_, _, rfl⟩ | ⟨i, ⟨_, hp, _⟩, rfl⟩ | ⟨_, hp, _, _, rfl⟩ | ⟨_, _, _, rfl⟩⟩ := step_cases hstep
  · exact State.inv_releaseAll _
  · exact h.nextEdge.perform hf
  · have hidle : s.lines.legalIdle := by have hends := h.endsLegal; rwa [hp] at hends
    exact State.inv_load hf (wait_zero_notMem_expand i) (legalIdle_run_expand hidle i)
  · exact h.nextEdge.refuse hp
  · exact h.nextEdge

/-- Settles O27: at reset by evaluation; with nothing pending the invariant is about the lines and `wait_left` themselves. -/
theorem invariantAtReset : Obligations.InvariantAtReset := by
  refine ⟨State.inv_releaseAll State.reset, fun s ⟨hwait, _, _, hends⟩ hp => ?_⟩
  rw [State.waitInRange, hp] at hwait
  rw [hp] at hends
  refine ⟨fun hl => ?_, Nat.le_zero.mp hwait⟩
  rw [hl] at hends
  revert hends
  decide

end Sys2Proof.Machine
end

section
/-! SUPPORT. Runs of a busy block without reset (10_state.md R12, R23; 40_delay.md R80, R83, R84): the steps, the time and the
trace of one wait, of one event, and of a sequence of events. -/

namespace Sys2Proof.Machine

/-! ### The events that start at a step -/

theorem startedEvents_of_idle {s : State} (hf : s.refused = false) (hr : s.port.rst = false) (hp : s.pending = [])
    (T : Timing) (k : Nat) : startedEvents T k s = [] := by simp [startedEvents, hf, hr, hp]

theorem startedEvents_of_set {s : State} {l : Line} {v : Level} {rest : List Event} (hf : s.refused = false)
    (hr : s.port.rst = false) (hp : s.pending = .set l v :: rest) (T : Timing) (k : Nat) :
    startedEvents T k s = [.set l v] := by simp [startedEvents, hf, hr, hp]

/-- A wait starts at the step at which none of it has elapsed, and at no later one. -/
theorem startedEvents_of_wait {s : State} {n : Nat} {rest : List Event} (hf : s.refused = false)
    (hr : s.port.rst = false) (hp : s.pending = .wait n :: rest) (T : Timing) (k : Nat) :
    startedEvents T k s = if s.waitLeft = n then [.wait n] else [] := by simp [startedEvents, hf, hr, hp]

/-! ### A wait in progress -/

section Wait
variable {s : State} {n : Nat} {rest : List Event} (hf : s.refused = false) (hp : s.pending = .wait n :: rest)
include hf hp

theorem step_wait_passes (hr : s.port.rst = false) (h0 : s.waitLeft ≠ 0) : step s = .next (s.nextEdge.passTime 1) := by
  rw [step_busy hf hr (by simp [hp]), State.perform_wait_passes (s := s.nextEdge) hp h0]

theorem step_wait_ends (hr : s.port.rst = false) (h0 : s.waitLeft = 0) : step s = .next (s.nextEdge.load rest) := by
  rw [step_busy hf hr (by simp [hp]), State.perform_wait_ends (s := s.nextEdge) hp h0]

/-- R83: `j` steps of a wait with as much left are `j` microseconds less of it, and nothing else. -/
theorem runFor_wait_passes {j : Nat} (hj : j ≤ s.waitLeft) (hr : s.noReset j) :
    runFor j s = .next ((s.skipEdges j).passTime j) := by
  induction j generalizing s with
  | zero => rfl
  | succ j ih =>
    have h0 : s.waitLeft ≠ 0 := by omega
    have hleft : j ≤ s.waitLeft - 1 := by omega
    rw [runFor_succ (step_wait_passes hf hp hr.port h0), ih (s := s.nextEdge.passTime 1) hf hp hleft hr.nextEdge]
    simp [State.skipEdges, State.nextEdge, State.passTime, Nat.add_comm, Nat.sub_sub]

/-- R80: those steps take `j` microseconds, if no reset cuts the last of them. -/
theorem elapsed_wait_passes {j : Nat} (hj : j ≤ s.waitLeft) (hr : s.noReset (j + 1)) (T : Timing) (k : Nat) :
    elapsed T k j s = j * unitsPerMicro T := by
  induction j generalizing s k with
  | zero => simp [elapsed]
  | succ j ih =>
    have h0 : s.waitLeft ≠ 0 := by omega
    have hleft : j ≤ s.waitLeft - 1 := by omega
    rw [elapsed_succ (step_wait_passes hf hp hr.port h0), ih (s := s.nextEdge.passTime 1) hf hp hleft hr.nextEdge,
      stepTime_of_no_reset hr.next_port, fullTime_wait_passes hr.port hp h0, Nat.succ_mul, Nat.add_comm]

/-- No event starts while a wait that has begun goes on or ends. -/
theorem eventTrace_wait_goes_on {j : Nat} (hj : j ≤ s.waitLeft + 1) (hn : s.waitLeft < n) (hr : s.noReset j)
    (T : Timing) (k now : Nat) : eventTrace T k now j s = [] := by
  induction j generalizing s k now with
  | zero => rfl
  | succ j ih =>
    have hnone : startedEvents T k s = [] := by rw [startedEvents_of_wait hf hr.port hp, if_neg hn.ne]
    by_cases h0 : s.waitLeft = 0
    · obtain rfl : j = 0 := by omega
      rw [eventTrace_succ (step_wait_ends hf hp hr.port h0), hnone]
      rfl
    · have hleft : j ≤ s.waitLeft - 1 + 1 := by omega
      have hlt : s.waitLeft - 1 < n := by omega
      rw [eventTrace_succ (step_wait_passes hf hp hr.port h0), hnone, ih (s := s.nextEdge.passTime 1) hf hp hleft hlt hr.nextEdge]
      rfl

end Wait

/-! ### A wait from its start -/

section WholeWait
variable {s : State} {n : Nat} {rest : List Event} (hf : s.refused = false) (hp : s.pending = .wait n :: rest)
  (hn : s.waitLeft = n)
include hf hp hn

/-- The wait is the only event of its steps, at their beginning. -/
theorem eventTrace_wait {j : Nat} (hj : j ≤ n) (hr : s.noReset (j + 1)) (T : Timing) (k now : Nat) :
    eventTrace T k now (j + 1) s = [⟨now, .wait n⟩] := by
  have hstart : startedEvents T k s = [.wait n] := by rw [startedEvents_of_wait hf hr.port hp, if_pos hn]
  by_cases h0 : n = 0
  · obtain rfl : j = 0 := by omega
    rw [eventTrace_succ (step_wait_ends hf hp hr.port (hn.trans h0)), hstart]
    rfl
  · have hgoes : j ≤ (s.nextEdge.passTime 1).waitLeft + 1 := by
      rw [State.passTime_waitLeft, State.nextEdge_waitLeft]; omega
    have hlt : (s.nextEdge.passTime 1).waitLeft < n := by
      rw [State.passTime_waitLeft, State.nextEdge_waitLeft]; omega
    have h0' : s.waitLeft ≠ 0 := hn ▸ h0
    rw [eventTrace_succ (step_wait_passes hf hp hr.port h0'), hstart,
      eventTrace_wait_goes_on (s := s.nextEdge.passTime 1) hf hp hgoes hlt hr.nextEdge]
    rfl

omit hn in
/-- The step after `j` microseconds of the wait performs on. -/
theorem step_within_wait {j : Nat} (hr : s.noReset (j + 1)) :
    step ((s.skipEdges j).passTime j) = .next ((s.skipEdges j).passTime j).nextEdge.perform :=
  step_busy (s := (s.skipEdges j).passTime j) hf hr.skipEdges.port (by simp [hp])

/-- R80: the time of a wait is its whole microseconds, and then that of the step after them. -/
theorem elapsed_wait {j : Nat} (hj : j ≤ n) (hr : s.noReset (j + 1)) (T : Timing) (k : Nat) :
    elapsed T k (j + 1) s = j * unitsPerMicro T + stepTime T (k + j) ((s.skipEdges j).passTime j) := by
  have hpass := runFor_wait_passes hf hp (hn ▸ hj) (hr.mono (Nat.le_succ j))
  rw [elapsed_add hpass, elapsed_wait_passes hf hp (hn ▸ hj) hr, elapsed_succ (step_within_wait hf hp hr)]
  rfl

/-- The step after the last whole microsecond ends the wait. -/
theorem step_after_micros (hr : s.noReset (n + 1)) :
    step ((s.skipEdges n).passTime n) = .next ((s.load rest).skipEdges (n + 1)) := by
  have hlast : ((s.skipEdges n).passTime n).waitLeft = 0 := by simp [hn]
  have hport : ((s.skipEdges n).passTime n).port.rst = false := hr.skipEdges.port
  rw [step_wait_ends (s := (s.skipEdges n).passTime n) hf hp hport hlast]
  simp [State.skipEdges, State.nextEdge, State.load, State.passTime]

/-- A wait of `n` ends after `n + 1` steps, its last step of no microseconds. -/
theorem runFor_wait (hr : s.noReset (n + 1)) : runFor (n + 1) s = .next ((s.load rest).skipEdges (n + 1)) := by
  have hpass := runFor_wait_passes hf hp hn.ge (hr.mono (Nat.le_succ n))
  rw [runFor_add hpass, runFor_succ (step_after_micros hf hp hn hr), runFor_zero]

omit hf in
/-- The time left to that last step is the wait's slack, of which a reset cuts any part. -/
theorem fullTime_after_micros (hr : s.noReset (n + 1)) (T : Timing) (k : Nat) :
    fullTime T k ((s.skipEdges n).passTime n) = waitSlack T k :=
  fullTime_wait_ends (s := (s.skipEdges n).passTime n) hr.skipEdges.port hp (by simp [hn]) k

end WholeWait

/-! ### The statements about waits -/

/-- Settles O12: of what a step without reset can do (`step_cases`), a wait at the head leaves performing, which has two cases. -/
theorem onlyResetCutsAWait : Obligations.OnlyResetCutsAWait := by
  intro s t n rest hstep hp
  have hb : s.pending ≠ [] := by simp [hp]
  obtain ⟨hf, _⟩ := step_cases hstep
  refine ⟨fun hr h0 => ?passes, fun hne => ?ends⟩
  case passes =>
    rw [step_wait_passes hf hp hr h0] at hstep
    cases hstep
    exact ⟨rfl, Nat.sub_add_cancel (Nat.one_le_iff_ne_zero.mpr h0), rfl, rfl, rfl⟩
  case ends =>
    cases hr : s.port.rst with
    | true => exact .inl rfl
    | false =>
      by_cases h0 : s.waitLeft = 0
      · rw [step_wait_ends hf hp hr h0] at hstep
        cases hstep
        exact .inr ⟨h0, rfl⟩
      · rw [step_wait_passes hf hp hr h0] at hstep
        cases hstep
        exact absurd rfl hne

/-- R80: a step that lasts at most the wait's slack keeps within `DELAY_SLACK`. -/
theorem stepTime_after_micros_le {s : State} {n m : Nat} {rest : List Event} (hp : s.pending = .wait n :: rest)
    (hn : s.waitLeft = n) (hr : s.noReset (n + 1)) {T : Timing} (hm : T.delaySlack = some m) (k : Nat) :
    stepTime T k ((s.skipEdges n).passTime n) ≤ m :=
  calc stepTime T k ((s.skipEdges n).passTime n) ≤ fullTime T k ((s.skipEdges n).passTime n) := stepTime_le_fullTime ..
    _ = waitSlack T k := fullTime_after_micros hp hn hr T k
    _ ≤ m := waitSlack_le hm k

/-- The timing with `x` drawn for the slack of every wait, and `c` for the part of a step before a reset (logs 3, 5). -/
def drawing (x c : Nat) (T : Timing) : Timing := { T with slackDraw := fun _ => x, resetCut := fun _ => c }

/-- R80: every slack that `DELAY_SLACK` allows is drawn. -/
theorem waitSlack_drawing {T : Timing} {x : Nat} (hx : ∀ m, T.delaySlack = some m → x ≤ m) (c k : Nat) :
    waitSlack (drawing x c T) k = x := by
  cases hm : T.delaySlack with
  | none => simp [waitSlack, drawing, hm]
  | some m => simp [waitSlack, drawing, hm, hx m hm]

/-- R83: every part of a step is where a reset may land. -/
theorem stepTime_drawing {T : Timing} {x c k : Nat} {s : State} (hr : s.nextEdge.port.rst = true)
    (hc : c ≤ fullTime (drawing x c T) k s) : stepTime (drawing x c T) k s = c := by
  rw [stepTime_of_reset hr]
  exact Nat.min_eq_left hc

/-- Settles O13: the run is `runFor_wait` and `runFor_wait_passes`, the time `elapsed_wait`; the draw of any slack is `drawing`. -/
theorem waitLastsAtLeastItsRequest : Obligations.WaitLastsAtLeastItsRequest := by
  intro s n rest hf hp hn hr
  refine ⟨⟨_, runFor_wait hf hp hn hr, rfl, rfl⟩, fun j hj => ?busy, fun T k => ?bounds, fun T k x hx => ?drawn⟩
  case busy =>
    have hrun := runFor_wait_passes hf hp (hn ▸ hj) (hr.mono (Nat.le_succ_of_le hj))
    exact ⟨_, hrun, by simp [hp], rfl, rfl⟩
  case bounds =>
    rw [elapsed_wait hf hp hn (Nat.le_refl n) hr]
    exact ⟨Nat.le_add_right _ _, fun m hm => Nat.add_le_add_left (stepTime_after_micros_le hp hn hr hm _) _⟩
  case drawn =>
    refine ⟨drawing x x T, rfl, rfl, rfl, ?_⟩
    have hfull : fullTime (drawing x x T) (k + n) ((s.skipEdges n).passTime n) = x :=
      (fullTime_after_micros hp hn hr _ _).trans (waitSlack_drawing hx x _)
    have hlast : stepTime (drawing x x T) (k + n) ((s.skipEdges n).passTime n) = x := by
      cases hnext : ((s.skipEdges n).passTime n).nextEdge.port.rst with
      | true => exact stepTime_drawing hnext hfull.ge
      | false => rw [stepTime_of_no_reset hnext, hfull]
    rw [elapsed_wait hf hp hn (Nat.le_refl n) hr, hlast]
    rfl

/-- Settles O14: the second wait is entered where the first has ended, and then each is `elapsed_wait` and `eventTrace_wait`. -/
theorem backToBackWaitsAdd : Obligations.BackToBackWaitsAdd := by
  intro s n1 n2 rest hf hp hn hr T k now
  have hr1 : s.noReset (n1 + 1) := hr.mono (Nat.le_add_right _ _)
  have hrun := runFor_wait hf hp hn hr1
  have hr2 : ((s.load (.wait n2 :: rest)).skipEdges (n1 + 1)).noReset (n2 + 1) := hr.skipEdges
  generalize hu : (s.load (.wait n2 :: rest)).skipEdges (n1 + 1) = u at hrun hr2
  obtain ⟨hf2, hp2, hn2⟩ : u.refused = false ∧ u.pending = .wait n2 :: rest ∧ u.waitLeft = n2 := by
    subst hu; exact ⟨hf, rfl, rfl⟩
  refine ⟨elapsed T k (n1 + 1) s, elapsed T (k + (n1 + 1)) (n2 + 1) u, ?first, ?second, elapsed_add hrun .., ?trace⟩
  case first => rw [elapsed_wait hf hp hn (Nat.le_refl n1) hr1]; exact Nat.le_add_right _ _
  case second => rw [elapsed_wait hf2 hp2 hn2 (Nat.le_refl n2) hr2]; exact Nat.le_add_right _ _
  case trace =>
    rw [eventTrace_add hrun, eventTrace_wait hf hp hn (Nat.le_refl n1) hr1,
      eventTrace_wait hf2 hp2 hn2 (Nat.le_refl n2) hr2]
    rfl

/-! ### A reset within a wait -/

/-- The ports of a step are the head of `edges`, whatever else the state holds. -/
theorem port_congr {s t : State} (h : s.edges = t.edges) : s.port = t.port := by
  rw [State.port, State.port, h]

/-- A step under reset shows the reset's two events and nothing else. -/
theorem eventTrace_reset {s : State} (hf : s.refused = false) (hr : s.port.rst = true) (T : Timing) (k now : Nat) :
    eventTrace T k now 1 s = (resetEvents T k).map (TimedEvent.mk now) := by
  rw [eventTrace_succ (step_reset hf hr), startedEvents_of_reset hf hr]
  exact List.append_nil _

/-- R83: the instant `x` lies within the step after `j` microseconds: within a microsecond, or after all `n` within the slack. -/
theorem cut_le_fullTime {s : State} {n j x : Nat} {rest : List Event} {T : Timing} (hp : s.pending = .wait n :: rest)
    (hn : s.waitLeft = n) (hj : j ≤ n) (hr : s.noReset (j + 1)) (hx : j < n → x ≤ (j + 1) * unitsPerMicro T)
    (hslack : j = n → ∀ m, T.delaySlack = some m → x ≤ n * unitsPerMicro T + m) (k : Nat) :
    x - j * unitsPerMicro T ≤
      fullTime (drawing (x - j * unitsPerMicro T) (x - j * unitsPerMicro T) T) k ((s.skipEdges j).passTime j) := by
  obtain rfl | hlt := Nat.eq_or_lt_of_le hj
  · have hdraw : ∀ m, T.delaySlack = some m → x - j * unitsPerMicro T ≤ m := fun m hm =>
      Nat.sub_le_iff_le_add'.mpr (hslack rfl m hm)
    rw [fullTime_after_micros hp hn hr, waitSlack_drawing hdraw]
  · have hleft : ((s.skipEdges j).passTime j).waitLeft ≠ 0 := by simp [hn]; omega
    have hx' := hx hlt
    rw [Nat.succ_mul] at hx'
    rw [fullTime_wait_passes (s := (s.skipEdges j).passTime j) hr.skipEdges.port hp hleft]
    exact Nat.sub_le_iff_le_add'.mpr hx'

/-- Settles O50: the draw is the part `x` leaves over after `j` microseconds, for the reset's cut and for the slack. -/
theorem resetLandsAnywhereInAWait : Obligations.ResetLandsAnywhereInAWait := by
  intro s n j x k now rest T hf hp hn hj hr hrst hlo hx hslack
  let y := x - j * unitsPerMicro T
  refine ⟨drawing y y T, rfl, rfl, rfl, ?_⟩
  have hpass := runFor_wait_passes hf hp (hn ▸ hj) (hr.mono (Nat.le_succ j))
  have hrun : runFor (j + 1) s = .next ((s.skipEdges j).passTime j).nextEdge.perform := by
    rw [runFor_add hpass, runFor_succ (step_within_wait hf hp hr), runFor_zero]
  have hnext : ((s.skipEdges j).passTime j).nextEdge.port.rst = true := by
    rwa [port_congr (t := s.skipEdges (j + 1)) (by simp)]
  have hport : ((s.skipEdges j).passTime j).nextEdge.perform.port.rst = true := by
    rwa [port_congr (State.perform_edges _)]
  have helapsed : elapsed (drawing y y T) k (j + 1) s = x := by
    rw [elapsed_wait hf hp hn hj hr, stepTime_drawing hnext (cut_le_fullTime hp hn hj hr hx hslack _)]
    exact Nat.add_sub_cancel' hlo
  rw [show j + 2 = j + 1 + 1 from rfl, eventTrace_add hrun, eventTrace_wait hf hp hn hj hr, helapsed, eventTrace_reset (by simp [hf]) hport]
  rfl

end Sys2Proof.Machine
end

section
/-! SUPPORT. Runs of a busy block over whole expansions (10_state.md R12, R23; 20_memory.md R51; 70_reset_and_hazards.md R192):
first one event, then a sequence of events, then commands one after the other. -/

namespace Sys2Proof.Machine

/-! ### One event -/

/-- The state once the event at the head is performed and only `rest` is left. -/
def State.afterEvent (e : Event) (rest : List Event) (s : State) : State :=
  ((s.withLines (s.lines.apply e)).load rest).skipEdges e.steps

section OneEvent
variable {s : State} {e : Event} {rest : List Event} (hf : s.refused = false) (hp : s.pending = e :: rest)
  (hw : s.waitLeft = headWait s.pending)
include hf hp

theorem step_set {l : Line} {v : Level} (he : e = .set l v) (hr : s.port.rst = false) :
    step s = .next (s.afterEvent e rest) := by
  subst he
  rw [step_busy hf hr (by simp [hp]), State.perform_set (s := s.nextEdge) hp]
  simp [State.afterEvent, State.nextEdge_eq_skipEdges, State.skipEdges, State.withLines, State.load, State.lines, Event.steps]

include hw

theorem runFor_event (hr : s.noReset e.steps) : runFor e.steps s = .next (s.afterEvent e rest) := by
  cases e with
  | set l v => rw [Event.steps, runFor_succ (step_set hf hp rfl hr.port), runFor_zero]
  | wait n => exact runFor_wait hf hp (by rw [hw, hp, headWait_wait]) hr

theorem eventTrace_event (hr : s.noReset e.steps) (T : Timing) (k now : Nat) :
    eventTrace T k now e.steps s = [⟨now, e⟩] := by
  cases e with
  | set l v =>
    rw [Event.steps, eventTrace_succ (step_set hf hp rfl hr.port), startedEvents_of_set hf hr.port hp]
    rfl
  | wait n => exact eventTrace_wait hf hp (by rw [hw, hp, headWait_wait]) (Nat.le_refl n) hr T k now

/-- R80, R90: an event takes its full time where no reset cuts its last step. -/
theorem elapsed_event (hr : s.noReset (e.steps + 1)) (T : Timing) (k : Nat) :
    elapsed T k e.steps s = eventTime T k e := by
  cases e with
  | set l v =>
    rw [Event.steps, elapsed_succ (step_set hf hp rfl hr.port), stepTime_of_no_reset hr.next_port, fullTime_set hr.port hp]
    rfl
  | wait n =>
    have hn : s.waitLeft = n := by rw [hw, hp, headWait_wait]
    have hr' : s.noReset (n + 1) := hr.mono (Nat.le_succ _)
    have hnext : ((s.skipEdges n).passTime n).nextEdge.port.rst = false := by
      rw [port_congr (t := s.skipEdges (n + 1)) (by simp)]
      exact (State.noReset.skipEdges (n := 1) hr).port
    rw [Event.steps, elapsed_wait hf hp hn (Nat.le_refl n) hr', stepTime_of_no_reset hnext, fullTime_after_micros hp hn hr']
    rfl

/-- The block is busy until the event's last step is over. -/
theorem busy_within_event {j : Nat} (hj : j < e.steps) (hr : s.noReset e.steps) :
    ∃ t, runFor j s = .next t ∧ t.busy = true := by
  cases e with
  | set l v =>
    obtain rfl : j = 0 := Nat.lt_one_iff.mp hj
    exact ⟨s, rfl, by simp [hp]⟩
  | wait n =>
    have hle : j ≤ s.waitLeft := by rw [hw, hp, headWait_wait]; exact Nat.le_of_lt_succ hj
    exact ⟨_, runFor_wait_passes hf hp hle (hr.mono hj.le), by simp [hp]⟩

end OneEvent

/-! ### A sequence of events -/

theorem Event.steps_pos (e : Event) : 0 < e.steps := by
  cases e <;> simp [Event.steps]

theorem eventSteps_pos {es : List Event} (h : es ≠ []) : 0 < eventSteps es := by
  cases es with
  | nil => contradiction
  | cons e es => rw [eventSteps_cons]; exact Nat.lt_add_right _ e.steps_pos

/-- Performing the head event does not change where everything pending leads. -/
theorem State.afterEvent_completed {s : State} {e : Event} {rest : List Event} (hp : s.pending = e :: rest) :
    (s.afterEvent e rest).completed = s.completed := by
  simp [State.completed, State.afterEvent, hp, State.skipEdges, State.withLines, State.load, State.lines, List.drop_drop]

theorem State.completed_idle {s : State} (hp : s.pending = []) (hw : s.waitLeft = headWait s.pending) : s.completed = s := by
  have h0 : s.waitLeft = 0 := by rw [hw, hp, headWait_nil]
  calc s.completed = { s with pending := [], waitLeft := 0 } := by simp [State.completed, State.skipEdges, State.load, hp]
    _ = s := by rw [← hp, ← h0]

section Sequence
variable {s : State} (hf : s.refused = false) (hw : s.waitLeft = headWait s.pending)
include hf hw

/-- R23: everything pending is performed. -/
theorem runFor_pending (hr : s.noReset (eventSteps s.pending)) : runFor (eventSteps s.pending) s = .next s.completed := by
  induction hp : s.pending generalizing s with
  | nil => rw [State.completed_idle hp hw]; rfl
  | cons e rest ih =>
    rw [hp, eventSteps_cons] at hr
    have hrun := runFor_event hf hp hw (hr.mono (Nat.le_add_right _ _))
    rw [eventSteps_cons, runFor_add hrun, ← State.afterEvent_completed hp]
    exact ih (s := s.afterEvent e rest) hf rfl hr.skipEdges rfl

theorem busy_within_pending {j : Nat} (hj : j < eventSteps s.pending) (hr : s.noReset (eventSteps s.pending)) :
    ∃ t, runFor j s = .next t ∧ t.busy = true := by
  induction hp : s.pending generalizing s j with
  | nil => rw [hp] at hj; exact absurd hj (Nat.not_lt_zero j)
  | cons e rest ih =>
    rw [hp, eventSteps_cons] at hr hj
    have hr1 : s.noReset e.steps := hr.mono (Nat.le_add_right _ _)
    by_cases hlt : j < e.steps
    · exact busy_within_event hf hp hw hlt hr1
    · obtain ⟨i, rfl⟩ := Nat.exists_eq_add_of_le (Nat.le_of_not_lt hlt)
      rw [runFor_add (runFor_event hf hp hw hr1)]
      exact ih (s := s.afterEvent e rest) hf rfl (Nat.lt_of_add_lt_add_left hj) hr.skipEdges rfl

/-- R12: the trace is what is pending, each event at the time those before it have ended. -/
theorem eventTrace_pending (hr : s.noReset (eventSteps s.pending)) (T : Timing) (k now : Nat) :
    eventTrace T k now (eventSteps s.pending) s = schedule T k now s.pending := by
  induction hp : s.pending generalizing s k now with
  | nil => rfl
  | cons e rest ih =>
    rw [hp, eventSteps_cons] at hr
    have hr1 : s.noReset e.steps := hr.mono (Nat.le_add_right _ _)
    have htail := ih (s := s.afterEvent e rest) hf rfl hr.skipEdges (k + e.steps) (now + elapsed T k e.steps s) rfl
    rw [eventSteps_cons, eventTrace_add (runFor_event hf hp hw hr1), eventTrace_event hf hp hw hr1, htail]
    cases rest with
    | nil => rfl
    | cons d rest =>
      have hr2 : s.noReset (e.steps + 1) := hr.mono (Nat.add_le_add_left (eventSteps_pos (by simp)) _)
      rw [elapsed_event hf hp hw hr2]
      rfl

end Sequence

/-! ### An accepted command -/

section Accepted
variable {s : State} {i : Instr} (ha : s.accepting i) (hr : s.noReset (1 + eventSteps (expand i)))

include ha in
theorem step_accepting : step s = .next (s.nextEdge.load (expand i)) := (step_accepts ha).trans (exec_eq_load i _)

include hr in
theorem noReset_accepted : (s.nextEdge.load (expand i)).noReset (eventSteps (expand i)) :=
  State.noReset.nextEdge (n := eventSteps (expand i)) (Nat.add_comm 1 _ ▸ hr)

include ha hr

theorem runFor_accepted :
    runFor (1 + eventSteps (expand i)) s = .next (s.nextEdge.load (expand i)).completed := by
  have ⟨hf, _⟩ := ha
  rw [Nat.add_comm, runFor_succ (step_accepting ha)]
  exact runFor_pending (s := s.nextEdge.load (expand i)) hf rfl (noReset_accepted hr)

/-- R12: the first event starts at the end of the acceptance step (log 16), which no reset cuts if there is an event. -/
theorem eventTrace_accepted (T : Timing) (k now : Nat) :
    eventTrace T k now (1 + eventSteps (expand i)) s = schedule T (k + 1) (now + T.idleDraw k) (expand i) := by
  have ⟨hf, hp, hport, _⟩ := ha
  have htrace := eventTrace_pending (s := s.nextEdge.load (expand i)) hf rfl (noReset_accepted hr) T (k + 1)
    (now + stepTime T k s)
  rw [Nat.add_comm, eventTrace_succ (step_accepting ha), startedEvents_of_idle hf hport hp]
  refine htrace.trans ?_
  by_cases hnil : expand i = []
  · rw [State.load_pending, hnil]; rfl
  · have hr2 : s.noReset 2 := hr.mono (Nat.add_le_add_left (eventSteps_pos hnil) 1)
    rw [stepTime_of_no_reset hr2.next_port, fullTime_idle hp]
    rfl

end Accepted

/-- Settles O23: an accepting step, and then everything pending. -/
theorem commandRunsToCompletion : Obligations.CommandRunsToCompletion := by
  intro i s ha hr
  refine ⟨?done, fun j hj => ?busy, fun T k now => eventTrace_accepted ha hr T k now⟩
  case done =>
    rw [runFor_accepted ha hr]
    simp [State.completed, State.skipEdges, State.withLines, State.load, State.nextEdge, State.lines, Nat.add_comm]
  case busy =>
    have ⟨hf, _⟩ := ha
    obtain ⟨t, ht, hb⟩ := busy_within_pending (s := s.nextEdge.load (expand i)) hf rfl hj (noReset_accepted hr)
    exact ⟨t, by rw [Nat.add_comm, runFor_succ (step_accepting ha), ht], hb⟩

/-! ### Commands one after the other -/

theorem map_event_schedule (T : Timing) (k now : Nat) (es : List Event) :
    (schedule T k now es).map TimedEvent.event = es := by
  induction es generalizing k now with
  | nil => rfl
  | cons e es ih => rw [schedule, List.map_cons, ih]

/-- The host of log 12 never resets. -/
theorem rst_of_mem_offerScript {is : List Instr} {p : Ports} (h : p ∈ offerScript is) : p.rst = false := by
  induction is with
  | nil => simp [offerScript] at h
  | cons i rest ih =>
    simp only [offerScript, List.cons_append, List.mem_cons, List.mem_append, List.mem_replicate] at h
    obtain rfl | ⟨_, rfl⟩ | h := h
    · rfl
    · cases rest <;> rfl
    · exact ih h

theorem noReset_of_offerScript {is : List Instr} {s : State} (h : s.edges = offerScript is) (n : Nat) : s.noReset n :=
  fun _ hp => rst_of_mem_offerScript (h ▸ List.mem_of_mem_take hp)

/-- A command's part of the script: its offer, and a step's ports for each step of its events. -/
theorem length_offerScript_cons (i : Instr) (rest : List Instr) :
    (offerScript (i :: rest)).length = 1 + eventSteps (expand i) + (offerScript rest).length := by
  simp [offerScript]; omega

theorem drop_offerScript_cons (i : Instr) (rest : List Instr) :
    (offerScript (i :: rest)).drop (1 + eventSteps (expand i)) = offerScript rest := by
  rw [offerScript]
  exact List.drop_left' (by simp [Nat.add_comm])

/-- An offered command that has a word is accepted by the idle block. -/
theorem accepting_of_offerScript {s : State} {i : Instr} {rest : List Instr} (hi : i.WellFormed) (hf : s.refused = false)
    (hp : s.pending = []) (he : s.edges = offerScript (i :: rest)) : s.accepting i := by
  have hport : s.port = offer i := by rw [State.port, he]; rfl
  exact ⟨hf, hp, by rw [hport]; rfl, by rw [hport]; rfl, by rw [hport]; exact decodeOfEncode i hi⟩

/-- Settles O24: the first command runs to completion at the head of the script, and leaves the rest of the script ahead. -/
theorem offeredCommandsRunInOrder : Obligations.OfferedCommandsRunInOrder := by
  intro is
  induction is with
  | nil => exact fun s _ hf hp _ => ⟨⟨s, rfl, hp, hf, rfl⟩, fun _ _ _ => rfl⟩
  | cons i rest ih =>
    intro s hwf hf hp he
    obtain ⟨hi, hrest⟩ := List.forall_mem_cons.mp hwf
    have ha := accepting_of_offerScript hi hf hp he
    have hr := noReset_of_offerScript he (1 + eventSteps (expand i))
    have hrun := runFor_accepted ha hr
    have hedges : (s.nextEdge.load (expand i)).completed.edges = offerScript rest := by
      rw [← drop_offerScript_cons i rest, ← he]
      simp [State.completed, Nat.add_comm]
    obtain ⟨⟨t, ht, htp, htf, htl⟩, htrace⟩ := ih (s.nextEdge.load (expand i)).completed hrest hf rfl hedges
    rw [length_offerScript_cons]
    refine ⟨⟨t, by rw [runFor_add hrun, ht], htp, htf, ?lines⟩, fun T k now => ?trace⟩
    case lines => rw [htl, List.flatMap_cons, Lines.run_append]; rfl
    case trace =>
      rw [eventTrace_add hrun, List.map_append, htrace, eventTrace_accepted ha hr, map_event_schedule, List.flatMap_cons]

/-- R120: the raw commands expand to the encoder command's events. -/
theorem flatMap_expand_npeRaw (rel rs : Bool) (v : Byte) :
    (npeRaw rs v).flatMap (expandWith rel) = expandWith rel (if rs then .dat v else .cmd v) := by
  rw [npeRaw, List.flatMap_append, flatMap_expand_xfer]
  cases rs <;> rfl

theorem wellFormed_of_mem_npeRaw {rs : Bool} {v : Byte} {i : Instr} (h : i ∈ npeRaw rs v) : i.WellFormed := by
  simp only [npeRaw, xfer, List.mem_append, List.mem_cons, List.mem_map, List.not_mem_nil, or_false] at h
  obtain ((rfl | ⟨_, _, rfl⟩) | rfl) | rfl := h <;> rfl

theorem wellFormed_encoderCommand (rs : Bool) (v : Byte) : (if rs then .dat v else .cmd v : Instr).WellFormed := by
  cases rs <;> rfl

/-- Settles O25: both hosts have their commands' events performed in order (O24), and those are the same events. -/
theorem rawCommandsEqualEncoderCommand : Obligations.RawCommandsEqualEncoderCommand := by
  intro rs v s hf hp
  have hsame : (npeRaw rs v).flatMap expand = [if rs then .dat v else .cmd v].flatMap expand :=
    (flatMap_expand_npeRaw ackReleaseSda rs v).trans (List.append_nil _).symm
  have hone : ∀ i ∈ [if rs then Instr.dat v else .cmd v], i.WellFormed :=
    List.forall_mem_singleton.mpr (wellFormed_encoderCommand rs v)
  obtain ⟨⟨t, ht, htp, _, htl⟩, htrace⟩ := offeredCommandsRunInOrder (npeRaw rs v)
    { s with edges := offerScript (npeRaw rs v) } (fun _ => wellFormed_of_mem_npeRaw) hf hp rfl
  obtain ⟨⟨u, hu, hup, _, hul⟩, hutrace⟩ := offeredCommandsRunInOrder [if rs then .dat v else .cmd v]
    { s with edges := offerScript [if rs then .dat v else .cmd v] } hone hf hp rfl
  refine ⟨fun rel => flatMap_expand_npeRaw rel rs v, ⟨t, u, ht, hu, ?lines, htp, hup⟩, fun T k now => ?trace⟩
  case lines => rw [htl, hul, hsame]; rfl
  case trace => rw [htrace, hutrace, hsame]

/-- R115: the encoder command's expansion is an `npe`, whose last event is the settle wait. -/
theorem expandWith_encoderCommand (rel rs : Bool) (v : Byte) :
    expandWith rel (if rs then .dat v else .cmd v) = npe rel rs v := by
  cases rs <;> rfl

/-- Settles O33: the run's events are the expansion (O23), which is seen as one transaction. -/
theorem encoderCommandIsOneTransaction : Obligations.EncoderCommandIsOneTransaction := by
  rintro rs v i s rfl ha hl hr bytes
  have hseen : ∀ rel, seen s.lines (expandWith rel (if rs then .dat v else .cmd v)) =
      Claim.transactionSeen rel s.scl bytes := fun rel => by
    rw [expandWith_encoderCommand, seen_npe rel hl, encoderBytes_eq_sixBytes]; rfl
  refine ⟨hseen, fun T k now => ?_⟩
  rw [eventTrace_accepted ha hr, map_event_schedule]
  refine ⟨hseen ackReleaseSda, ?_⟩
  rw [expand, expandWith_encoderCommand, npe_eq, List.getLast?_concat]
  rfl

/-! ### The least time of a command -/

/-- R192: the waits' requests, and a `T_EDGE` for each `Set`. -/
def leastTime (T : Timing) (es : List Event) : Nat := leastMicros es * unitsPerMicro T + setCount es * T.tEdge

theorem leastTime_cons (T : Timing) (e : Event) (es : List Event) :
    leastTime T (e :: es) = leastTime T [e] + leastTime T es := by
  rw [← List.singleton_append, leastTime, leastMicros_append, setCount_append, leastTime, leastTime]
  ring

theorem leastTime_set (T : Timing) (l : Line) (v : Level) : leastTime T [.set l v] = T.tEdge := by
  simp [leastTime, leastMicros, setCount, Event.micros, Event.isSet]

theorem leastTime_wait (T : Timing) (n : Nat) : leastTime T [.wait n] = n * unitsPerMicro T := by
  simp [leastTime, leastMicros, setCount, Event.micros, Event.isSet]

theorem leastTime_le_eventTime (T : Timing) (k : Nat) (e : Event) : leastTime T [e] ≤ eventTime T k e := by
  cases e with
  | set l v => exact (leastTime_set T l v).le
  | wait n => rw [leastTime_wait]; exact Nat.le_add_right _ _

/-- A sequence that ends in a wait takes its least time even where a reset cuts the last step, which is within the slack. -/
theorem leastTime_le_elapsed {s : State} (hf : s.refused = false) (hw : s.waitLeft = headWait s.pending)
    (hr : s.noReset (eventSteps s.pending)) (hlast : ∀ e ∈ s.pending.getLast?, e.isSet = false) (T : Timing) (k : Nat) :
    leastTime T s.pending ≤ elapsed T k (eventSteps s.pending) s := by
  induction hp : s.pending generalizing s k with
  | nil => simp [leastTime, leastMicros, setCount]
  | cons e rest ih =>
    rw [hp, eventSteps_cons] at hr
    have hr1 : s.noReset e.steps := hr.mono (Nat.le_add_right _ _)
    cases rest with
    | nil =>
      cases e with
      | set l v => simp [hp, Event.isSet] at hlast
      | wait n =>
        have hn : s.waitLeft = n := by rw [hw, hp, headWait_wait]
        have htime := elapsed_wait hf hp hn (Nat.le_refl n) hr1 T k
        rw [leastTime_wait]
        exact htime ▸ Nat.le_add_right _ _
    | cons d rest =>
      have hr2 : s.noReset (e.steps + 1) := hr.mono (Nat.add_le_add_left (eventSteps_pos (by simp)) _)
      have hlast' : ∀ x ∈ (d :: rest).getLast?, x.isSet = false := by rwa [hp, List.getLast?_cons_cons] at hlast
      have htail := ih (s := s.afterEvent e (d :: rest)) hf rfl hr.skipEdges hlast' (k + e.steps) rfl
      rw [leastTime_cons, eventSteps_cons, elapsed_add (runFor_event hf hp hw hr1), elapsed_event hf hp hw hr2]
      exact Nat.add_le_add (leastTime_le_eventTime T k e) htail

/-- The table of R192 counts the expansions. -/
theorem leastDuration_eq (i : Instr) : Claim.leastDuration i = (leastMicros (expand i), setCount (expand i)) := by
  cases i with
  | start => rfl
  | stop => rfl
  | wrb b => rw [expand, expandWith_wrb, leastMicros_expandWrb, setCount_expandWrb]; rfl
  | cmd v => rw [expand, expandWith_cmd, leastMicros_npe, setCount_npe]; rfl
  | dat v => rw [expand, expandWith_dat, leastMicros_npe, setCount_npe]; rfl
  | wait n =>
    rw [expand, expandWith_wait]
    obtain ⟨rfl, h⟩ | ⟨_, h⟩ := expandWait_cases n
    · rw [h]; rfl
    · rw [h]; rfl

/-- Every expansion ends in a wait, if in anything. -/
theorem isSet_of_getLast?_expand {i : Instr} {e : Event} (h : e ∈ (expand i).getLast?) : e.isSet = false := by
  cases i with
  | start => cases h; rfl
  | stop => cases h; rfl
  | wrb b => simp [expand, expandWrb, ackCell, clockPulse, ackReleaseSda] at h; subst h; rfl
  | cmd v => rw [expand, expandWith_cmd, npe_eq, List.getLast?_concat] at h; cases h; rfl
  | dat v => rw [expand, expandWith_dat, npe_eq, List.getLast?_concat] at h; cases h; rfl
  | wait n =>
    rw [expand, expandWith_wait] at h
    obtain ⟨_, hw⟩ | ⟨_, hw⟩ := expandWait_cases n
    · rw [hw] at h; cases h
    · rw [hw] at h; cases h; rfl

/-- Settles O39: the table's entries are the expansion's least time (`leastDuration_eq`). -/
theorem leastCommandDurations : Obligations.LeastCommandDurations := by
  intro i s t hf hexec hr T k
  rw [exec_eq_load] at hexec
  cases hexec
  rw [leastDuration_eq]
  exact leastTime_le_elapsed (s := s.load (expand i)) hf rfl hr (fun _ => isSet_of_getLast?_expand) T k

end Sys2Proof.Machine
end

section
/-! SUPPORT. Proofs of the statements about the intervals of an expansion and of the waveform (41_bus_controller.md R91 to R93,
R100): the phases that every expansion is made of, their schedule, and how far apart their line changes are. -/

namespace Sys2Proof.Machine

/-! ### Phases -/

/-- The sequences made of R91 to R93's phases, from one SCL level to another: a wait; a clock edge, held for a quantum; a change
of SDA at SCL high, held for a quantum; and a bit set up, with the clock released right after and held for a quantum. -/
inductive Phases : Level → Level → List Event → Prop
  | nil (c : Level) : Phases c c []
  | wait (n : Nat) {c d : Level} {es : List Event} : Phases c d es → Phases c d (.wait n :: es)
  | clock (v : Level) {c d : Level} {es : List Event} : Phases v d es → Phases c d (.set .scl v :: .wait 2 :: es)
  | data (v : Level) {d : Level} {es : List Event} : Phases true d es → Phases true d (.set .sda v :: .wait 2 :: es)
  | setup (v : Level) {c d : Level} {es : List Event} :
      Phases true d es → Phases c d (.set .sda v :: .set .scl true :: .wait 2 :: es)

theorem Phases.append {a b c : Level} {es fs : List Event} (h : Phases a b es) (hf : Phases b c fs) :
    Phases a c (es ++ fs) := by
  induction h with
  | nil c => exact hf
  | wait n _ ih => exact .wait n (ih hf)
  | clock v _ ih => exact .clock v (ih hf)
  | data v _ ih => exact .data v (ih hf)
  | setup v _ ih => exact .setup v (ih hf)

section Expansions
variable (c : Level) (rel : Bool)

theorem phases_start : Phases c false expandStart := .setup true (.data false (.clock false (.nil false)))

theorem phases_stop : Phases c true expandStop := .setup false (.data true (.nil true))

theorem phases_bitCell (v : Level) : Phases c false (bitCell v) := .setup v (.clock false (.nil false))

theorem phases_ackCell : Phases c false (ackCell rel) := by
  cases rel with
  | false => exact .clock true (.clock false (.nil false))
  | true => exact .setup true (.clock false (.nil false))

theorem phases_bitCells (vs : List Level) : Phases false false (vs.flatMap bitCell) := by
  induction vs with
  | nil => exact .nil false
  | cons v vs ih => exact (phases_bitCell false v).append ih

theorem phases_expandWrb (b : Byte) : Phases c false (expandWrb rel b) :=
  ((phases_bitCell c _).append (phases_bitCells _)).append (phases_ackCell false rel)

theorem phases_bytes (bs : List Byte) : Phases false false (bs.flatMap (expandWrb rel)) := by
  induction bs with
  | nil => exact .nil false
  | cons b bs ih => exact (phases_expandWrb false rel b).append ih

theorem phases_npe (rs : Bool) (v : Byte) : Phases c true (npe rel rs v) :=
  (((phases_start c).append (phases_bytes rel _)).append (phases_stop false)).append (.wait tSettleUs (.nil true))

/-- Every command's expansion is made of phases, whatever the SCL level before it. -/
theorem exists_phases_expandWith (i : Instr) : ∃ d, Phases c d (expandWith rel i) := by
  cases i with
  | start => exact ⟨false, phases_start c⟩
  | stop => exact ⟨true, phases_stop c⟩
  | wrb b => exact ⟨false, phases_expandWrb c rel b⟩
  | cmd v => exact ⟨true, phases_npe c rel false v⟩
  | dat v => exact ⟨true, phases_npe c rel true v⟩
  | wait n =>
    refine ⟨c, ?_⟩
    rw [expandWith_wait]
    obtain ⟨_, h⟩ | ⟨_, h⟩ := expandWait_cases n
    · rw [h]; exact .nil c
    · rw [h]; exact .wait n (.nil c)

end Expansions

/-! ### A quantum after each clock edge -/

/-- Each `Set` of the clock is followed at once by a wait of a quantum. -/
def ClockHeld (es : List Event) : Prop :=
  ∀ (v : Level) (pre rest : List Event), es = pre ++ .set .scl v :: rest → ∃ more, rest = .wait 2 :: more

theorem ClockHeld.nil : ClockHeld [] := fun _ _ _ h => by simp at h

theorem ClockHeld.cons {e : Event} {es : List Event} (he : ∀ v, e ≠ .set .scl v) (h : ClockHeld es) :
    ClockHeld (e :: es) := by
  intro v pre rest hes
  cases pre with
  | nil => exact absurd (List.cons.inj hes).1 (he v)
  | cons x pre => exact h v pre rest (List.cons.inj hes).2

theorem ClockHeld.clock {es : List Event} (v : Level) (h : ClockHeld es) :
    ClockHeld (.set .scl v :: .wait 2 :: es) := by
  intro w pre rest hes
  cases pre with
  | nil => exact ⟨es, (List.cons.inj hes).2.symm⟩
  | cons x pre => exact h.cons (by simp) w pre rest (List.cons.inj hes).2

theorem Phases.clockHeld {c d : Level} {es : List Event} (h : Phases c d es) : ClockHeld es := by
  induction h with
  | nil c => exact .nil
  | wait n _ ih => exact ih.cons (by simp)
  | clock v _ ih => exact ih.clock v
  | data v _ ih => exact (ih.cons (by simp)).cons (by simp)
  | setup v _ ih => exact (ih.clock true).cons (by simp)

/-- Where an entry of a schedule stands: its event, and after it the schedule of the events after it. -/
theorem schedule_eq_append_cons {T : Timing} {k now : Nat} {es : List Event} {pre rest : List TimedEvent} {x : TimedEvent}
    (h : schedule T k now es = pre ++ x :: rest) :
    ∃ pre' rest' j, es = pre' ++ x.event :: rest' ∧ rest = schedule T (j + x.event.steps) (x.time + eventTime T j x.event) rest' := by
  induction es generalizing k now pre with
  | nil => simp [schedule] at h
  | cons e es ih =>
    cases pre with
    | nil =>
      rw [schedule, List.nil_append, List.cons.injEq] at h
      obtain ⟨rfl, rfl⟩ := h
      exact ⟨[], es, k, rfl, rfl⟩
    | cons y pre =>
      rw [schedule, List.cons_append, List.cons.injEq] at h
      obtain ⟨pre', rest', j, hes, hrest⟩ := ih h.2
      exact ⟨e :: pre', rest', j, by rw [hes]; rfl, hrest⟩

theorem le_time_of_mem_schedule {T : Timing} {k now : Nat} {es : List Event} {x : TimedEvent}
    (h : x ∈ schedule T k now es) : now ≤ x.time := by
  induction es generalizing k now with
  | nil => simp [schedule] at h
  | cons e es ih =>
    rw [schedule, List.mem_cons] at h
    obtain rfl | h := h
    · exact Nat.le_refl now
    · exact Nat.le_trans (Nat.le_add_right now _) (ih h)

/-- Settles O40: the wait after a clock edge is a quantum of every later event's time. -/
theorem clockLevelsLastAQuantum : Obligations.ClockLevelsLastAQuantum := by
  intro i rel v
  obtain ⟨d, hphases⟩ := exists_phases_expandWith false rel i
  refine ⟨hphases.clockHeld v, fun T k now t pre rest h e he hset => ?_⟩
  obtain ⟨pre', rest', j, hes, hrest⟩ := schedule_eq_append_cons h
  obtain ⟨more, rfl⟩ := hphases.clockHeld v pre' rest' hes
  rw [hrest, schedule, List.mem_cons] at he
  obtain rfl | he := he
  · simp [Event.isSet] at hset
  · have hle := le_time_of_mem_schedule he
    simp only [eventTime] at hle
    omega

/-! ### Line changes in time -/

/-- What R100 asks of a change of the lines from `a` to `p`'s and the next change `q`: held for a quantum after a clock edge or a
start or stop condition, and the clock released right after a change of SDA at SCL low. -/
def ChangesApart (T : Timing) (a : Lines) (p q : WavePoint) : Prop :=
  (a.scl ≠ p.lines.scl ∨ p.lines.scl = true → p.time + 2 * unitsPerMicro T + T.tEdge ≤ q.time) ∧
  (a.scl = p.lines.scl → p.lines.scl = false → q.lines.scl = true ∧ q.time = p.time + T.tEdge)

/-- A waveform from the line state `a` whose neighbouring changes are apart. -/
def AllApart (T : Timing) : Lines → List WavePoint → Prop
  | a, p :: q :: post => ChangesApart T a p q ∧ AllApart T p.lines (q :: post)
  | _, _ => True

theorem allApart_changesApart {T : Timing} {a : Lines} {pre post : List WavePoint} {p q : WavePoint}
    (h : AllApart T a (pre ++ p :: q :: post)) :
    ChangesApart T ((pre.getLast?.map WavePoint.lines).getD a) p q := by
  induction pre generalizing a with
  | nil => exact h.1
  | cons x pre ih =>
    have htail : AllApart T x.lines (pre ++ p :: q :: post) := by
      cases pre with
      | nil => exact h.2
      | cons y pre => exact h.2
    have hlast : ((x :: pre).getLast?.map WavePoint.lines).getD a = (pre.getLast?.map WavePoint.lines).getD x.lines := by
      rw [List.getLast?_cons]; cases pre.getLast? <;> rfl
    rw [hlast]
    exact ih htail

/-- Timed events in phases from SCL level `c` on, the first line change not before `lo`: after each phase the next line
change is not before the phase's hold is over. Waits themselves change no line. -/
inductive TimedPhases (T : Timing) : Level → Nat → List TimedEvent → Prop
  | nil (c : Level) (lo : Nat) : TimedPhases T c lo []
  | wait (t n : Nat) {c : Level} {lo : Nat} {xs : List TimedEvent} :
      TimedPhases T c lo xs → TimedPhases T c lo (⟨t, .wait n⟩ :: xs)
  | clock (v : Level) {c : Level} {lo t : Nat} {xs : List TimedEvent} : lo ≤ t →
      TimedPhases T v (t + 2 * unitsPerMicro T + T.tEdge) xs → TimedPhases T c lo (⟨t, .set .scl v⟩ :: xs)
  | data (v : Level) {lo t : Nat} {xs : List TimedEvent} : lo ≤ t →
      TimedPhases T true (t + 2 * unitsPerMicro T + T.tEdge) xs → TimedPhases T true lo (⟨t, .set .sda v⟩ :: xs)
  | setup (v : Level) {c : Level} {lo t : Nat} {xs : List TimedEvent} : lo ≤ t →
      TimedPhases T true (t + T.tEdge + 2 * unitsPerMicro T + T.tEdge) xs →
      TimedPhases T c lo (⟨t, .set .sda v⟩ :: ⟨t + T.tEdge, .set .scl true⟩ :: xs)

theorem TimedPhases.mono {T : Timing} {c : Level} {lo lo' : Nat} {xs : List TimedEvent} (h : TimedPhases T c lo xs)
    (hle : lo' ≤ lo) : TimedPhases T c lo' xs := by
  induction h generalizing lo' with
  | nil c lo => exact .nil c lo'
  | wait t n _ ih => exact .wait t n (ih hle)
  | clock v hlo hxs _ => exact .clock v (Nat.le_trans hle hlo) hxs
  | data v hlo hxs _ => exact .data v (Nat.le_trans hle hlo) hxs
  | setup v hlo hxs _ => exact .setup v (Nat.le_trans hle hlo) hxs

/-- A quantum's wait is over no sooner than the quantum. -/
theorem TimedPhases.quantum {T : Timing} {c : Level} {t k : Nat} {xs : List TimedEvent}
    (h : TimedPhases T c (t + eventTime T k (.wait 2)) xs) :
    TimedPhases T c (t + 2 * unitsPerMicro T) (⟨t, .wait 2⟩ :: xs) :=
  .wait t 2 (h.mono (Nat.add_le_add_left (Nat.le_add_right _ _) t))

/-- The schedule of phases is timed phases, before others whose first line change is not before it ends. -/
theorem Phases.timedPhases {T : Timing} {c d : Level} {es : List Event} (h : Phases c d es) {k now : Nat}
    {xs : List TimedEvent} (hxs : TimedPhases T d (now + duration T k es) xs) :
    TimedPhases T c now (schedule T k now es ++ xs) := by
  induction h generalizing k now with
  | nil c => exact hxs
  | wait n _ ih =>
    rw [duration, ← Nat.add_assoc] at hxs
    exact .wait now n ((ih hxs).mono (Nat.le_add_right _ _))
  | clock v _ ih =>
    rw [duration, duration, ← Nat.add_assoc, ← Nat.add_assoc] at hxs
    exact .clock v (Nat.le_refl now) ((ih hxs).quantum.mono (Nat.add_right_comm ..).le)
  | data v _ ih =>
    rw [duration, duration, ← Nat.add_assoc, ← Nat.add_assoc] at hxs
    exact .data v (Nat.le_refl now) ((ih hxs).quantum.mono (Nat.add_right_comm ..).le)
  | setup v _ ih =>
    rw [duration, duration, duration, ← Nat.add_assoc, ← Nat.add_assoc, ← Nat.add_assoc] at hxs
    exact .setup v (Nat.le_refl now) ((ih hxs).quantum.mono (Nat.add_right_comm ..).le)

/-- Commands with pauses between them are timed phases. -/
theorem timedPhases_pausedSchedule (T : Timing) (rel c : Level) (k now : Nat) (host : List (Nat × Instr)) :
    TimedPhases T c now (Claim.pausedSchedule T rel k now host) := by
  induction host generalizing c k now with
  | nil => exact .nil c now
  | cons cmd host ih =>
    obtain ⟨pause, i⟩ := cmd
    obtain ⟨d, hd⟩ := exists_phases_expandWith c rel i
    exact (hd.timedPhases (ih d _ _)).mono (Nat.le_add_right now pause)

/-! ### The waveform of timed phases -/

section Waveform
variable {T : Timing} {a : Lines} {x : TimedEvent} {xs : List TimedEvent}

theorem waveform_cons_of_eq (h : a.apply x.event = a) : waveform a (x :: xs) = waveform a xs := if_pos h

theorem waveform_cons_of_ne (h : a.apply x.event ≠ a) :
    waveform a (x :: xs) = ⟨x.time, a.apply x.event⟩ :: waveform (a.apply x.event) xs := if_neg h

/-- A waveform whose changes are apart, the first not before `lo`. -/
structure ApartFrom (T : Timing) (a : Lines) (lo : Nat) (ws : List WavePoint) : Prop where
  apart : AllApart T a ws
  first : ∀ p ∈ ws.head?, lo ≤ p.time

theorem ApartFrom.mono {lo lo' : Nat} {ws : List WavePoint} (h : ApartFrom T a lo ws) (hle : lo' ≤ lo) :
    ApartFrom T a lo' ws :=
  ⟨h.apart, fun p hp => Nat.le_trans hle (h.first p hp)⟩

/-- A change of the clock, or one at SCL high, with a quantum's hold after it. -/
theorem ApartFrom.held {lo t : Nat} {b : Lines} {ws : List WavePoint} (hlo : lo ≤ t) (hb : a.scl ≠ b.scl ∨ b.scl = true)
    (h : ApartFrom T b (t + 2 * unitsPerMicro T + T.tEdge) ws) : ApartFrom T a lo (⟨t, b⟩ :: ws) := by
  refine ⟨?apart, fun p hp => by cases hp; exact hlo⟩
  case apart =>
    cases ws with
    | nil => trivial
    | cons q post =>
      refine ⟨⟨fun _ => h.first q rfl, fun hsame hlow => ?_⟩, h.apart⟩
      obtain hne | hhigh := hb
      · exact absurd hsame hne
      · exact absurd (hlow.symm.trans hhigh) Bool.false_ne_true

/-- An event with a quantum's hold after it, which if it changes the lines is a change of the clock or one at SCL high. -/
theorem apartFrom_held {lo : Nat} (hlo : lo ≤ x.time) (hx : a.scl ≠ (a.apply x.event).scl ∨ (a.apply x.event).scl = true ∨
    a.apply x.event = a)
    (h : ApartFrom T (a.apply x.event) (x.time + 2 * unitsPerMicro T + T.tEdge) (waveform (a.apply x.event) xs)) :
    ApartFrom T a lo (waveform a (x :: xs)) := by
  by_cases hsame : a.apply x.event = a
  · rw [waveform_cons_of_eq hsame]
    rw [hsame] at h
    exact h.mono (by omega)
  · rw [waveform_cons_of_ne hsame]
    exact h.held hlo (hx.imp_right fun hor => hor.resolve_right hsame)

theorem apartFrom_clock {lo t : Nat} {v : Level} (hlo : lo ≤ t)
    (h : ApartFrom T ⟨v, a.sda⟩ (t + 2 * unitsPerMicro T + T.tEdge) (waveform ⟨v, a.sda⟩ xs)) :
    ApartFrom T a lo (waveform a (⟨t, .set .scl v⟩ :: xs)) := by
  refine apartFrom_held hlo ?_ h
  by_cases hv : a.scl = v
  · exact .inr (.inr (by rw [Lines.apply_set, Lines.set_scl, ← hv]))
  · exact .inl hv

/-- A bit set up at SCL low, and the clock's rise `T_EDGE` later; or at SCL high, where the clock does not change. -/
theorem apartFrom_setup {lo t : Nat} {v : Level} (hlo : lo ≤ t)
    (h : ApartFrom T ⟨true, v⟩ (t + T.tEdge + 2 * unitsPerMicro T + T.tEdge) (waveform ⟨true, v⟩ xs)) :
    ApartFrom T a lo (waveform a (⟨t, .set .sda v⟩ :: ⟨t + T.tEdge, .set .scl true⟩ :: xs)) := by
  have hrise : ApartFrom T ⟨a.scl, v⟩ (t + T.tEdge) (waveform ⟨a.scl, v⟩ (⟨t + T.tEdge, .set .scl true⟩ :: xs)) :=
    apartFrom_clock (Nat.le_refl _) h
  cases hscl : a.scl with
  | true =>
    refine apartFrom_held hlo (.inr (.inl hscl)) ?_
    have hsame : (⟨true, v⟩ : Lines).apply (.set .scl true) = ⟨true, v⟩ := rfl
    rw [Lines.apply_set, Lines.set_sda, hscl, waveform_cons_of_eq (x := ⟨t + T.tEdge, .set .scl true⟩) hsame]
    have hle : t + 2 * unitsPerMicro T + T.tEdge ≤ t + T.tEdge + 2 * unitsPerMicro T + T.tEdge := by omega
    exact h.mono hle
  | false =>
    rw [hscl] at hrise
    by_cases hsda : a.sda = v
    · have hsame : a.apply (.set .sda v) = a := by rw [Lines.apply_set, Lines.set_sda, ← hsda]
      rw [waveform_cons_of_eq (x := ⟨t, .set .sda v⟩) hsame]
      have ha : a = ⟨false, v⟩ := by rw [← hscl, ← hsda]
      rw [ha]
      exact hrise.mono (Nat.le_trans hlo (Nat.le_add_right t _))
    · have hne : a.apply (.set .sda v) ≠ a := fun h => hsda (congrArg Lines.sda h).symm
      have hne' : (⟨false, v⟩ : Lines).apply (.set .scl true) ≠ ⟨false, v⟩ := by simp
      rw [waveform_cons_of_ne (x := ⟨t + T.tEdge, .set .scl true⟩) hne'] at hrise
      rw [waveform_cons_of_ne (x := ⟨t, .set .sda v⟩) hne, Lines.apply_set, Lines.set_sda, hscl,
        waveform_cons_of_ne (x := ⟨t + T.tEdge, .set .scl true⟩) hne']
      refine ⟨⟨⟨fun hor => ?_, fun _ _ => ⟨rfl, rfl⟩⟩, hrise.apart⟩, fun p hp => by cases hp; exact hlo⟩
      simp [hscl] at hor

end Waveform

theorem TimedPhases.apartFrom {T : Timing} {c : Level} {lo : Nat} {xs : List TimedEvent} (h : TimedPhases T c lo xs)
    {a : Lines} (ha : a.scl = c) : ApartFrom T a lo (waveform a xs) := by
  induction h generalizing a with
  | nil c lo => exact ⟨trivial, fun _ hp => by cases hp⟩
  | wait t n _ ih => rw [waveform_cons_of_eq rfl]; exact ih ha
  | clock v hlo _ ih => exact apartFrom_clock hlo (ih rfl)
  | data v hlo _ ih => exact apartFrom_held hlo (.inr (.inl ha)) (ih ha)
  | setup v hlo _ ih => exact apartFrom_setup hlo (ih rfl)

/-! ### The end of a command -/

/-- Each `Set` of a schedule starts a quantum and `T_EDGE` or more before the schedule ends. -/
def SetsBeforeEnd (T : Timing) (es : List Event) : Prop :=
  ∀ (k now : Nat), ∀ x ∈ schedule T k now es, x.event.isSet = true →
    x.time + 2 * unitsPerMicro T + T.tEdge ≤ now + duration T k es

section SetsBeforeEnd
variable {T : Timing} {es : List Event} (h : SetsBeforeEnd T es)
include h

theorem SetsBeforeEnd.wait (n : Nat) : SetsBeforeEnd T (.wait n :: es) := by
  intro k now x hx hset
  rw [schedule, List.mem_cons] at hx
  rw [duration, ← Nat.add_assoc]
  obtain rfl | hx := hx
  · contradiction
  · exact h _ _ x hx hset

/-- A `Set` with a quantum or more after it. -/
theorem SetsBeforeEnd.set (l : Line) (v : Level) (hq : ∀ k, 2 * unitsPerMicro T ≤ duration T k es) :
    SetsBeforeEnd T (.set l v :: es) := by
  intro k now x hx hset
  rw [schedule, List.mem_cons] at hx
  obtain rfl | hx := hx
  · have hrest := hq (k + (Event.set l v).steps)
    simp only [duration, eventTime]
    omega
  · rw [duration, ← Nat.add_assoc]
    exact h _ _ x hx hset

end SetsBeforeEnd

theorem quantum_le_duration (T : Timing) (k : Nat) (es : List Event) : 2 * unitsPerMicro T ≤ duration T k (.wait 2 :: es) :=
  Nat.le_trans (Nat.le_add_right _ (waitSlack T (k + 2))) (Nat.le_add_right _ _)

theorem Phases.setsBeforeEnd {T : Timing} {c d : Level} {es : List Event} (h : Phases c d es) : SetsBeforeEnd T es := by
  have held {l : Line} {v : Level} {es : List Event} (h : SetsBeforeEnd T es) :
      SetsBeforeEnd T (.set l v :: .wait 2 :: es) := (h.wait 2).set l v fun k => quantum_le_duration T k es
  induction h with
  | nil c => exact fun _ _ x hx => by cases hx
  | wait n _ ih => exact ih.wait n
  | clock v _ ih => exact held ih
  | data v _ ih => exact held ih
  | setup v _ ih => exact (held ih).set _ _ fun k => Nat.le_trans (quantum_le_duration T _ _) (Nat.le_add_left _ _)

/-- Every change in the waveform is a `Set`'s. -/
theorem exists_set_of_mem_waveform {a : Lines} {xs : List TimedEvent} {p : WavePoint} (h : p ∈ waveform a xs) :
    ∃ x ∈ xs, x.event.isSet = true ∧ x.time = p.time := by
  induction xs generalizing a with
  | nil => simp at h
  | cons x xs ih =>
    by_cases hsame : a.apply x.event = a
    · rw [waveform_cons_of_eq hsame] at h
      obtain ⟨y, hy, hset⟩ := ih h
      exact ⟨y, List.mem_cons_of_mem x hy, hset⟩
    · rw [waveform_cons_of_ne hsame, List.mem_cons] at h
      obtain rfl | h := h
      · refine ⟨x, List.mem_cons_self, ?_, rfl⟩
        obtain ⟨t, ⟨l, v⟩ | n⟩ := x
        · rfl
        · exact absurd rfl hsame
      · obtain ⟨y, hy, hset⟩ := ih h
        exact ⟨y, List.mem_cons_of_mem x hy, hset⟩

/-- Settles O51: the changes are those of timed phases; and in one command's phases a hold follows each `Set`. -/
theorem waveformKeepsTimingBounds : Obligations.WaveformKeepsTimingBounds := by
  intro T rel a _
  refine ⟨fun k now host pre p q post h => ?between, fun k now i p hp => ?atEnd⟩
  case between =>
    have happart := (timedPhases_pausedSchedule T rel a.scl k now host).apartFrom rfl
    rw [h] at happart
    exact allApart_changesApart happart.apart
  case atEnd =>
    obtain ⟨x, hx, hset, htime⟩ := exists_set_of_mem_waveform hp
    obtain ⟨d, hd⟩ := exists_phases_expandWith a.scl rel i
    rw [← htime]
    exact hd.setsBeforeEnd k now x hx hset

end Sys2Proof.Machine
end

section
/-! SUPPORT. Proofs of the statements about the host software (43_host_sequences.md R130 to R143) and the ticks (40_delay.md
R82). -/

namespace Sys2Proof.Machine

/-! ### Decimal text -/

theorem decimalDigits_of_lt {n fuel : Nat} (h : n < 10) : decimalDigits (fuel + 1) n = [n] := if_pos h

theorem decimalDigits_of_ge {n fuel : Nat} (h : 10 ≤ n) :
    decimalDigits (fuel + 1) n = decimalDigits fuel (n / 10) ++ [n % 10] := if_neg (Nat.not_lt.mpr h)

theorem decimalDigits_ne_nil (fuel n : Nat) : decimalDigits (fuel + 1) n ≠ [] := by
  by_cases h : n < 10
  · simp [decimalDigits_of_lt h]
  · simp [decimalDigits_of_ge (Nat.le_of_not_lt h)]

theorem lt_ten_of_mem_decimalDigits {fuel n d : Nat} (h : d ∈ decimalDigits fuel n) : d < 10 := by
  induction fuel generalizing n with
  | zero => simp [decimalDigits] at h
  | succ fuel ih =>
    by_cases hn : n < 10
    · rw [decimalDigits_of_lt hn, List.mem_singleton] at h; exact h ▸ hn
    · rw [decimalDigits_of_ge (Nat.le_of_not_lt hn), List.mem_append, List.mem_singleton] at h
      obtain h | rfl := h
      · exact ih h
      · exact Nat.mod_lt n (by decide)

/-- R133: the digits `%02d` writes. -/
def paddedDigits (n : Nat) : List Nat := if n < 10 then [0, n] else decimalDigits (n + 1) n

theorem twoDigits_eq (n : Nat) : twoDigits n = (paddedDigits n).map fun d => BitVec.ofNat 8 (0x30 + d) := rfl

theorem lt_ten_of_mem_paddedDigits {n d : Nat} (h : d ∈ paddedDigits n) : d < 10 := by
  unfold paddedDigits at h
  split at h
  case isTrue hn => simp only [List.mem_cons, List.not_mem_nil, or_false] at h; omega
  case isFalse => exact lt_ten_of_mem_decimalDigits h

theorem two_le_length_twoDigits (n : Nat) : 2 ≤ (twoDigits n).length := by
  rw [twoDigits_eq, List.length_map, paddedDigits]
  split
  case isTrue => exact Nat.le_refl 2
  case isFalse hn =>
    obtain ⟨m, rfl⟩ : ∃ m, n = m + 1 := Nat.exists_eq_add_one.mpr (by omega)
    have hpos := List.length_pos_iff.mpr (decimalDigits_ne_nil m ((m + 1) / 10))
    rw [decimalDigits_of_ge (Nat.le_of_not_lt hn), List.length_append, List.length_singleton]
    omega

/-- A decimal digit in ASCII is no NUL. -/
theorem asciiDigit_ne_zero {d : Nat} (h : d < 10) : BitVec.ofNat 8 (0x30 + d) ≠ 0 := by
  revert d; decide

theorem ne_zero_of_mem_twoDigits {n : Nat} {c : Byte} (h : c ∈ twoDigits n) : c ≠ 0 := by
  rw [twoDigits_eq, List.mem_map] at h
  obtain ⟨d, hd, rfl⟩ := h
  exact asciiDigit_ne_zero (lt_ten_of_mem_paddedDigits hd)

theorem paddedDigits_of_le {n : Nat} (h : n ≤ 99) : paddedDigits n = [n / 10, n % 10] := by
  by_cases hn : n < 10
  · rw [paddedDigits, if_pos hn, Nat.div_eq_of_lt hn, Nat.mod_eq_of_lt hn]
  · obtain ⟨m, rfl⟩ : ∃ m, n = m + 1 := Nat.exists_eq_add_one.mpr (by omega)
    have hdiv : (m + 1) / 10 < 10 := by omega
    rw [paddedDigits, if_neg hn, decimalDigits_of_ge (Nat.le_of_not_lt hn), decimalDigits_of_lt hdiv]
    rfl

/-- Three digits: the hundreds, and then the two digits of the rest. -/
theorem paddedDigits_of_three {n : Nat} (h1 : 100 ≤ n) (h2 : n ≤ 999) :
    paddedDigits n = [n / 100, n % 100 / 10, n % 100 % 10] := by
  obtain ⟨m, rfl⟩ : ∃ m, n = m + 2 := ⟨n - 2, by omega⟩
  have hn : ¬m + 2 < 10 := by omega
  have htens : 10 ≤ (m + 2) / 10 := by omega
  have hhundreds : (m + 2) / 10 / 10 < 10 := by omega
  rw [paddedDigits, if_neg hn, decimalDigits_of_ge (Nat.le_of_not_lt hn), decimalDigits_of_ge htens,
    decimalDigits_of_lt hhundreds]
  simp only [List.cons_append, List.nil_append, List.cons.injEq, and_true]
  omega

theorem twoDigits_of_le {n : Nat} (h : n ≤ 99) : twoDigits n = Claim.twoDigits n := by
  rw [twoDigits_eq, paddedDigits_of_le h]
  rfl

theorem twoDigits_of_three {n : Nat} (h1 : 100 ≤ n) (h2 : n ≤ 999) :
    twoDigits n = BitVec.ofNat 8 (0x30 + n / 100) :: Claim.twoDigits (n % 100) := by
  rw [twoDigits_eq, paddedDigits_of_three h1 h2]
  rfl

/-! ### The time as commands -/

theorem length_formatTime (h m s : Nat) : (formatTime h m s).length = 8 := by
  have hh := two_le_length_twoDigits h
  have hm := two_le_length_twoDigits m
  have hs := two_le_length_twoDigits s
  simp [formatTime]
  omega

theorem ne_zero_of_mem_formatTime {h m s : Nat} {c : Byte} (hc : c ∈ formatTime h m s) : c ≠ 0 := by
  have hmem := List.mem_of_mem_take hc
  simp only [List.mem_append, List.mem_singleton] at hmem
  obtain (((hc | rfl) | hc) | rfl) | hc := hmem
  · exact ne_zero_of_mem_twoDigits hc
  · decide
  · exact ne_zero_of_mem_twoDigits hc
  · decide
  · exact ne_zero_of_mem_twoDigits hc

/-- R132: text without a NUL is put whole. -/
theorem putString_of_no_nul {text : List Byte} (h : ∀ c ∈ text, c ≠ 0) : putString text = text.map .dat := by
  rw [putString, List.takeWhile_eq_self_iff.mpr (by simpa using h)]

theorem renderTime_eq (h m s : Nat) : renderTime h m s = .cmd 0xC0 :: (formatTime h m s).map .dat := by
  rw [renderTime, putString_of_no_nul fun _ => ne_zero_of_mem_formatTime]
  rfl

/-- Settles O47: the text is eight characters without a NUL (`renderTime_eq`), and its fields are `twoDigits`. -/
theorem renderTimeIsNineCommands : Obligations.RenderTimeIsNineCommands := by
  refine fun h m s => ⟨⟨formatTime h m s, length_formatTime h m s, renderTime_eq h m s⟩, fun hh hm hs => ?two,
    fun hh1 hh2 hm hs => ?three⟩
  case two =>
    rw [renderTime_eq, formatTime, twoDigits_of_le hh, twoDigits_of_le hm, twoDigits_of_le hs]
    rfl
  case three =>
    rw [renderTime_eq, formatTime, twoDigits_of_three hh1 hh2, twoDigits_of_le hm, twoDigits_of_le hs]
    rfl

/-! ### The host's commands have words -/

/-- Every command of a list has a word (R62). -/
abbrev AllWellFormed (is : List Instr) : Prop := ∀ i ∈ is, i.WellFormed

theorem AllWellFormed.append {is js : List Instr} (h : AllWellFormed is) (hj : AllWellFormed js) :
    AllWellFormed (is ++ js) := List.forall_mem_append.mpr ⟨h, hj⟩

theorem AllWellFormed.cons {i : Instr} {is : List Instr} (h : i.WellFormed) (hs : AllWellFormed is) :
    AllWellFormed (i :: is) := List.forall_mem_cons.mpr ⟨h, hs⟩

theorem allWellFormed_nil : AllWellFormed [] := List.forall_mem_nil _

theorem allWellFormed_putString (text : List Byte) : AllWellFormed (putString text) :=
  List.forall_mem_map.mpr fun _ _ => rfl

theorem allWellFormed_textAt (row col : Nat) (text : List Byte) : AllWellFormed (setCursor row col :: putString text) :=
  (allWellFormed_putString text).cons rfl

theorem allWellFormed_renderTime (h m s : Nat) : AllWellFormed (renderTime h m s) := allWellFormed_textAt _ _ _

theorem allWellFormed_renderLabel (r : RunFlag) : AllWellFormed (renderLabel r) := allWellFormed_textAt _ _ _

theorem allWellFormed_debounce : AllWellFormed debounce := by decide

/-- R130, D16: a delay too long for one `WAIT` is split into waits that fit. -/
theorem allWellFormed_hostWait (n : Nat) : AllWellFormed (hostWait n) := by
  unfold hostWait
  split
  case isTrue hn =>
    exact List.forall_mem_singleton.mpr (wellFormed_wait_iff.mpr (Nat.lt_of_le_of_lt hn (by decide)))
  case isFalse =>
    have hrest : n % maxWait < 2 ^ 24 := Nat.lt_trans (Nat.mod_lt n (by decide)) (by decide)
    refine AllWellFormed.append (fun i hi => ?_) (List.forall_mem_singleton.mpr (wellFormed_wait_iff.mpr hrest))
    rw [List.eq_of_mem_replicate hi]
    decide

theorem allWellFormed_bringUp (b : BringUp) : AllWellFormed (bringUpCommands b) := by
  have hcmd : AllWellFormed [.cmd 0x30] := by decide
  have hend : AllWellFormed [.cmd 0x20, .cmd 0x28, .cmd 0x0C, .cmd 0x06, .cmd 0x01, .wait 2000] := by decide
  have hwait := allWellFormed_hostWait
  exact (((((((hwait _).append hcmd).append (hwait _)).append hcmd).append (hwait _)).append hcmd).append (hwait _)).append hend

theorem allWellFormed_bootDisplay (label0 : List Byte) : AllWellFormed (bootDisplay label0) :=
  ((allWellFormed_textAt 0 0 label0).append (allWellFormed_renderTime 0 0 0)).append (allWellFormed_renderLabel .paused)

theorem allWellFormed_pollStartStop (ss : Level) (x : HostState) : AllWellFormed (pollStartStop ss x).2 := by
  unfold pollStartStop
  split
  case isTrue => exact (allWellFormed_renderLabel _).append allWellFormed_debounce
  case isFalse => exact allWellFormed_nil

theorem allWellFormed_pollReset (rst : Level) (x : HostState) : AllWellFormed (pollReset rst x).2 := by
  unfold pollReset
  split
  case isTrue =>
    exact ((allWellFormed_renderTime 0 0 0).append (allWellFormed_renderLabel .paused)).append allWellFormed_debounce
  case isFalse => exact allWellFormed_nil

theorem allWellFormed_tickIfRunning (ceiling : Option Nat) (x : HostState) : AllWellFormed (tickIfRunning ceiling x).2 := by
  unfold tickIfRunning
  split
  · exact (allWellFormed_renderTime _ _ _).cons rfl
  · exact allWellFormed_nil

theorem allWellFormed_hostRun (ceiling : Option Nat) (polls : List (Level × Level)) (x : HostState) :
    AllWellFormed (hostRun ceiling x polls).2 := by
  induction polls generalizing x with
  | nil => exact allWellFormed_nil
  | cons p polls ih =>
    have hIteration : AllWellFormed (hostIteration ceiling p.1 p.2 x).2 :=
      ((allWellFormed_pollStartStop _ _).append (allWellFormed_pollReset _ _)).append (allWellFormed_tickIfRunning _ _)
    exact hIteration.append (ih _)

/-- Settles O48: what is issued is waits that fit and commands of bytes. -/
theorem hostCommandsAreWellFormed : Obligations.HostCommandsAreWellFormed :=
  ⟨allWellFormed_bringUp, allWellFormed_bootDisplay, allWellFormed_hostRun⟩

/-! ### One iteration of the control loop -/

theorem isEdge_eq_true {last now : Level} : isEdge last now = true ↔ last = true ∧ now = false := by
  simp [isEdge]

theorem pollStartStop_of_no_edge {ss : Level} {x : HostState} (h : ¬(x.lastSs = true ∧ ss = false)) :
    pollStartStop ss x = ({ x with lastSs := ss }, []) := if_neg (mt isEdge_eq_true.mp h)

theorem pollReset_of_no_edge {rst : Level} {x : HostState} (h : ¬(x.lastRst = true ∧ rst = false)) :
    pollReset rst x = ({ x with lastRst := rst }, []) := if_neg (mt isEdge_eq_true.mp h)

theorem pollReset_of_edge {rst : Level} {x : HostState} (h : x.lastRst = true ∧ rst = false) :
    pollReset rst x = ({ (resetAction x).1 with lastRst := rst }, (resetAction x).2) := if_pos (isEdge_eq_true.mpr h)

theorem tickIfRunning_of_paused {x : HostState} (h : x.run = .paused) (ceiling : Option Nat) :
    tickIfRunning ceiling x = (x, []) := by rw [tickIfRunning, h]

/-- R139: the start/stop poll toggles `run` on an edge, and remembers its own level alone. -/
theorem pollStartStop_frame (ss : Level) (x : HostState) :
    (pollStartStop ss x).1.run = (if x.lastSs = true ∧ ss = false then x.run.toggle else x.run) ∧
    (pollStartStop ss x).1.lastSs = ss ∧ (pollStartStop ss x).1.lastRst = x.lastRst := by
  by_cases h : x.lastSs = true ∧ ss = false
  · rw [pollStartStop, if_pos (isEdge_eq_true.mpr h), if_pos h]; exact ⟨rfl, rfl, rfl⟩
  · rw [pollStartStop_of_no_edge h, if_neg h]; exact ⟨rfl, rfl, rfl⟩

/-- R140: the reset poll leaves `run`. -/
theorem pollReset_frame (rst : Level) (x : HostState) :
    (pollReset rst x).1.run = x.run ∧ (pollReset rst x).1.lastSs = x.lastSs ∧ (pollReset rst x).1.lastRst = rst := by
  by_cases h : x.lastRst = true ∧ rst = false
  · rw [pollReset_of_edge h]; exact ⟨rfl, rfl, rfl⟩
  · rw [pollReset_of_no_edge h]; exact ⟨rfl, rfl, rfl⟩

/-- R141: the tick moves the time alone. -/
theorem tickIfRunning_frame (ceiling : Option Nat) (x : HostState) :
    (tickIfRunning ceiling x).1.run = x.run ∧ (tickIfRunning ceiling x).1.lastSs = x.lastSs ∧
    (tickIfRunning ceiling x).1.lastRst = x.lastRst := by
  unfold tickIfRunning
  split
  · exact x.advance_frame ceiling
  · exact ⟨rfl, rfl, rfl⟩

/-- Settles O46: only the start/stop poll touches `run`; a host paused at the end was paused at the tick, which then did nothing. -/
theorem iterationTogglesOnStartStopEdgeOnly : Obligations.IterationTogglesOnStartStopEdgeOnly := by
  intro ceiling ss rst x y
  let a := pollStartStop ss x
  let b := pollReset rst a.1
  obtain ⟨hrunA, hssA, hrstA⟩ := pollStartStop_frame ss x
  obtain ⟨hrunB, hssB, hrstB⟩ := pollReset_frame rst a.1
  obtain ⟨hrunC, hssC, hrstC⟩ := tickIfRunning_frame ceiling b.1
  refine ⟨hrunC.trans (hrunB.trans hrunA), hssC.trans (hssB.trans hssA), hrstC.trans hrstB, fun hlast hrst hpaused => ?resetEdge,
    fun hnoSs hnoRst hpaused => ?quiet⟩
  case resetEdge =>
    have hb : b = _ := pollReset_of_edge (x := a.1) ⟨hrstA.trans hlast, hrst⟩
    have hc := tickIfRunning_of_paused (hrunC.symm.trans hpaused) ceiling
    have hy : y.1 = (tickIfRunning ceiling b.1).1 := rfl
    rw [hy, hc, hb]
    exact ⟨rfl, rfl, rfl⟩
  case quiet =>
    have ha : a = _ := pollStartStop_of_no_edge hnoSs
    have hb : b = _ := pollReset_of_no_edge (x := a.1) (hrstA ▸ hnoRst)
    have hc := tickIfRunning_of_paused (x := b.1) (by rw [hb, ha]; exact hpaused) ceiling
    change a.2 ++ b.2 ++ (tickIfRunning ceiling b.1).2 = [] ∧ (tickIfRunning ceiling b.1).1 = _
    rw [hc, hb, ha]
    exact ⟨rfl, rfl⟩

/-! ### Ticks -/

/-- Settles O41: the rounding of `minTicks`; and a draw of at most a tick period is under the raised `DELAY_SLACK`. -/
theorem tickCountIsCeiling : Obligations.TickCountIsCeiling := by
  refine ⟨fun f n => ?ceiling, fun f T k x hf hx => ?admits, Nat.succ_pos _, fun m hm => ?block⟩
  case ceiling => rw [minTicks]; omega
  case admits =>
    unfold waitSlack
    split
    case h_1 => rfl
    case h_2 m hm => exact Nat.min_eq_left (le_of_admitTick hf hm hx)
  case block =>
    obtain ⟨d, _, rfl⟩ := Option.map_eq_some_iff.mp hm
    have hcovers := tickPeriod_covers (Nat.succ_pos _ : 0 < Config.fTickHz) Config.timing
    exact Nat.le_trans hcovers (Nat.mul_le_mul_right _ (Nat.le_max_left _ _))

end Sys2Proof.Machine
end

section
/-! SUPPORT. Proofs of the statements about the assembler (30_encoding.md R66, R67): what assembles comes from one row of
`assembleOps`, and every row's commands have a word. -/

namespace Sys2Proof.Machine

/-! ### Every row's commands have a word -/

theorem allWellFormed_singleton {i : Instr} (h : i.WellFormed) : AllWellFormed [i] := List.forall_mem_singleton.mpr h

theorem allWellFormed_xfer (a : Byte) (bs : List Byte) : AllWellFormed (xfer a bs) := by
  have hbytes : AllWellFormed ((a :: bs).map .wrb) := List.forall_mem_map.mpr fun _ _ => rfl
  exact (hbytes.cons (i := .start) rfl).append (allWellFormed_singleton (i := .stop) rfl)

/-- A row whose operand may be refused gives its commands for an operand that is not. -/
theorem allWellFormed_of_map {α : Type} {o : Option α} {f : α → List Instr} {is : List Instr} (h : o.map f = some is)
    (hf : ∀ x, AllWellFormed (f x)) : AllWellFormed is := by
  obtain ⟨x, _, rfl⟩ := Option.map_eq_some_iff.mp h
  exact hf x

/-- Of the rows of R66 and R67 only `WAIT`'s needs a check, and makes it. -/
theorem allWellFormed_assembleOps {m : List Char} {os : List Operand} {is : List Instr} (h : assembleOps m os = some is) :
    AllWellFormed is := by
  unfold assembleOps at h
  split at h
  case h_1 => cases h; exact allWellFormed_singleton rfl
  case h_2 => cases h; exact allWellFormed_singleton rfl
  case h_3 => exact allWellFormed_of_map h fun _ => allWellFormed_singleton rfl
  case h_4 => exact allWellFormed_of_map h fun _ => allWellFormed_singleton rfl
  case h_5 => exact allWellFormed_of_map h fun _ => allWellFormed_singleton rfl
  case h_6 n =>
    split at h
    case isTrue hw => cases h; exact allWellFormed_singleton hw
    case isFalse => cases h
  case h_7 o os =>
    obtain ⟨a, _, h⟩ := Option.bind_eq_some_iff.mp h
    obtain ⟨bs, _, h⟩ := Option.bind_eq_some_iff.mp h
    cases h
    exact allWellFormed_xfer a bs
  case h_8 => cases h; exact allWellFormed_singleton rfl
  case h_9 => exact allWellFormed_of_map h allWellFormed_putString
  case h_10 =>
    split at h
    case isTrue => exact allWellFormed_of_map h fun _ _ => wellFormed_of_mem_npeRaw
    case isFalse => cases h
  case h_11 => cases h

/-- R66: a line is blank, or a mnemonic with its operands. -/
theorem assembleLine_cases {line : List Char} {is : List Instr} (h : assembleLine line = some is) :
    is = [] ∨ ∃ m os, assembleOps m os = some is := by
  unfold assembleLine at h
  dsimp only at h
  split at h
  case isTrue => cases h; exact .inl rfl
  case isFalse =>
    refine .inr ⟨(readMnemonic (skipBlanks line)).1, ?_⟩
    split at h
    case isTrue => exact ⟨[], h⟩
    case isFalse =>
      split at h
      case h_1 => obtain ⟨os, _, h⟩ := Option.bind_eq_some_iff.mp h; exact ⟨os, h⟩
      case h_2 => obtain ⟨os, _, h⟩ := Option.bind_eq_some_iff.mp h; exact ⟨os, h⟩
      case h_3 => cases h

theorem allWellFormed_assembleLine {line : List Char} {is : List Instr} (h : assembleLine line = some is) :
    AllWellFormed is := by
  obtain rfl | ⟨_, _, hops⟩ := assembleLine_cases h
  · exact allWellFormed_nil
  · exact allWellFormed_assembleOps hops

/-! ### Immediates -/

theorem immByte_of_fits {n : Nat} (h : n < 256) : immByte (.num n) = some (BitVec.ofNat 8 n) := if_pos h
theorem immByte_of_too_large {n : Nat} (h : 256 ≤ n) : immByte (.num n) = none := if_neg (Nat.not_lt.mpr h)
theorem asciiByte_of_ascii {c : Char} (h : c.toNat < 128) : asciiByte c = some (BitVec.ofNat 8 c.toNat) := if_pos h

section Rows
variable (o : Operand)

theorem assembleOps_wrb : assembleOps ['W', 'R', 'B'] [o] = (immByteOrChar o).map fun b => [.wrb b] := rfl
theorem assembleOps_cmd : assembleOps ['C', 'M', 'D'] [o] = (immByte o).map fun v => [.cmd v] := rfl
theorem assembleOps_dat : assembleOps ['D', 'A', 'T'] [o] = (immByteOrChar o).map fun v => [.dat v] := rfl
theorem assembleOps_wait (n : Nat) :
    assembleOps ['W', 'A', 'I', 'T'] [.num n] = if (Instr.wait n).wellFormed then some [.wait n] else none := rfl

end Rows

/-- Settles O49: every row gives commands with a word, and an immediate's row is decided by whether it fits. -/
theorem assemblerNeverTruncates : Obligations.AssemblerNeverTruncates := by
  refine ⟨fun _ _ => allWellFormed_assembleLine, rfl, rfl, fun n h => ?fits, fun n h => ?waitFits, fun c h => ?chars,
    fun n h => ?tooLarge, fun n h => ?waitTooLarge⟩
  case fits => simp only [assembleOps_wrb, assembleOps_cmd, assembleOps_dat, immByteOrChar, immByte_of_fits h,
    Option.map_some, and_self]
  case waitFits => rw [assembleOps_wait, if_pos (wellFormed_wait_iff.mpr h)]
  case chars => simp only [assembleOps_wrb, assembleOps_dat, immByteOrChar, asciiByte_of_ascii h, Option.map_some, and_self]
  case tooLarge => simp only [assembleOps_wrb, assembleOps_cmd, assembleOps_dat, immByteOrChar, immByte_of_too_large h,
    Option.map_none, and_self]
  case waitTooLarge => rw [assembleOps_wait, if_neg (mt wellFormed_wait_iff.mp (Nat.not_lt.mpr h))]

end Sys2Proof.Machine
end
